-- ==== Sys2Proof/Word.lean ====
section
/-! DEFINITION. The words the FCR moves: bytes, and the 16- and 32-bit patterns that multi-byte fields hold.
(00_scope.md R6, R7, R10; 20_memory.md R42.) -/

namespace Sys2Proof

/-- A byte, the smallest unit the FCR sends or receives (R6, R40). -/
abbrev Byte := BitVec 8

/-- A 16-bit field: `motherboard_current` (R42). -/
abbrev Half := BitVec 16

/-- A 32-bit binary32 pattern, moved and compared as bits (R10). -/
abbrev Word := BitVec 32

end Sys2Proof
end

