-- ==== Sys2Proof/Syntax.lean ====
section
/-! DEFINITION. The instructions: one constructor per row of spec/opcode_table.json, the records and frame contents
they carry, and the form in which the host issues them. -/

namespace Sys2Proof

/-- The four command kinds (00_scope.md glossary; 30_encoding.md R61, R71). -/
inductive Kind where
  | poll
  | current
  | speed
  | torque
  deriving DecidableEq, Repr

/-- Three raw bytes in frame order: a record's `header` (42_telemetry_decoder.md R151). -/
structure RawBytes3 where
  b0 : Byte
  b1 : Byte
  b2 : Byte
  deriving DecidableEq, Repr

/-- Four raw bytes in frame order: a record's `reserved` (R151). -/
structure RawBytes4 where
  b0 : Byte
  b1 : Byte
  b2 : Byte
  b3 : Byte
  deriving DecidableEq, Repr

/-- The fields of a telemetry frame after its header, offsets 3 to 31 (30_encoding.md R64). -/
structure TlmFields where
  /-- Offset 3, the code the device last accepted. -/
  lastCommand : Byte
  /-- Offsets 4 to 7, a binary32 pattern carried unchanged (R154). -/
  controlTarget : Word
  /-- Offsets 8 to 11, a binary32 pattern. -/
  speedFeedback : Word
  /-- Offsets 12 to 15, a binary32 pattern. -/
  currentFeedback : Word
  /-- Offsets 16 to 19, a binary32 pattern. -/
  accelerationFeedback : Word
  /-- Offset 20, a device counter that wraps at 256 (R157). -/
  commandResponseCount : Byte
  /-- Offset 21, a device counter. -/
  telemetryCommandCount : Byte
  /-- Offset 22, a device counter. -/
  errorCommandCount : Byte
  /-- Offsets 23 and 24, unsigned (R156). -/
  motherboardCurrent : Half
  /-- Offset 25, two's complement, in degrees Celsius (R155). -/
  temperature : Byte
  /-- Offset 26, opaque (R158). -/
  singleMotorStatus : Byte
  /-- Offsets 27 to 30, passed through (R158). -/
  reserved : RawBytes4
  /-- Offset 31. -/
  checksum : Byte
  deriving DecidableEq, Repr

/-- A telemetry record (R151): the frame's fields and its first three bytes. It has no timestamp (R159). -/
structure TlmRecord extends TlmFields where
  /-- Offsets 0 to 2. -/
  header : RawBytes3
  deriving DecidableEq, Repr

/-- The instructions of spec/opcode_table.json: ten operations (R70) and six wire frames (R60 to R66). -/
inductive Instr where
  /-- ENC POLL; the value is ignored (R126). -/
  | encPoll (value : Word)
  /-- ENC CURRENT, a binary32 pattern in mA (R123). -/
  | encCurrent (value : Word)
  /-- ENC SPEED, a binary32 pattern in RPM (R124). -/
  | encSpeed (value : Word)
  /-- ENC TORQUE, a binary32 pattern in mN·m (R125). -/
  | encTorque (value : Word)
  /-- CKSUM of a frame (R101). -/
  | cksum (frame : List Byte)
  /-- VALIDATE a frame (R102). -/
  | validate (frame : List Byte)
  /-- DECODE_TLM (R150). -/
  | decodeTlm (frame : List Byte)
  /-- PUSH a chunk (R180). -/
  | push (chunk : List Byte)
  /-- PUSH_BYTE; `sop` says that the byte begins a chunk (R205). -/
  | pushByte (b : Byte) (sop : Bool)
  /-- RESET (R260). -/
  | reset
  /-- A frame `EB 90 D1 payload checksum` on the link (R60 to R63). -/
  | cmdCurrent (payload : Word) (checksum : Byte)
  /-- A frame `EB 90 D2 payload checksum` on the link. -/
  | cmdSpeed (payload : Word) (checksum : Byte)
  /-- A frame `EB 90 D3 payload checksum` on the link. -/
  | cmdTorque (payload : Word) (checksum : Byte)
  /-- The Poll frame, a literal (R69), on the link. -/
  | cmdPoll
  /-- A frame `EB 90 DD` and 29 more bytes on the link (R64). -/
  | rspTlm (fields : TlmFields)
  /-- Eight bytes `EB 90 disc body checksum` on the link; an acknowledgment where `disc` is not `DD` (R66). -/
  | rspAck (disc : Byte) (body : Word) (checksum : Byte)
  deriving DecidableEq, Repr

/-- Where an issue enters. Wire frames of the two directions are told apart by where they enter, for an
acknowledgment may carry the very bytes of a command frame (R68; log 4). -/
inductive Port where
  /-- The operation port: a tag and its operand (R70, R73). -/
  | operation
  /-- A host-to-device frame seen on the link (R60). -/
  | commandLink
  /-- A device-to-host frame (R64, R66). -/
  | responseLink
  deriving DecidableEq, Repr

/-- One thing the host gives the FCR, as bytes; their number is part of it (log 2). -/
structure Issue where
  port : Port
  bytes : List Byte
  deriving DecidableEq, Repr

end Sys2Proof
end

