-- ==== Sys2Proof/Machine/Operands.lean ====
section
/-! DEFINITION. The protocol's constants, the reading and writing of frame fields, the layouts of the frames, the
range check and the value a binary32 pattern denotes. Everything here is a pure function of bytes and words. -/

namespace Sys2Proof

/-! ### Protocol constants (00_scope.md R5) -/

/-- `MARK0`. -/
def marker0 : Byte := 0xEB

/-- `MARK1`. -/
def marker1 : Byte := 0x90

/-- `DISC_TLM`, the telemetry discriminator, also the Poll code. -/
def discTlm : Byte := 0xDD

/-- `LEN_CMD`. -/
def lenCmd : Nat := 8

/-- `LEN_ACK`. -/
def lenAck : Nat := 8

/-- `LEN_TLM`. -/
def lenTlm : Nat := 32

/-! ### Byte sequences and big-endian fields (R6, R8; 20_memory.md R41) -/

/-- `s[i]`. No rule reads an offset that the sequence does not have; past the end it reads 0 (log 13). -/
def byteAt (s : List Byte) (i : Nat) : Byte := s.getD i 0

/-- `s[a..b)` (R6). -/
def slice (s : List Byte) (a b : Nat) : List Byte := (s.drop a).take (b - a)

/-- `be16(s, o)` (R8). -/
def be16 (s : List Byte) (o : Nat) : Half := byteAt s o ++ byteAt s (o + 1)

/-- `be32(s, o)` (R8). -/
def be32 (s : List Byte) (o : Nat) : Word :=
  byteAt s o ++ byteAt s (o + 1) ++ byteAt s (o + 2) ++ byteAt s (o + 3)

/-- The two bytes of a 16-bit field, most significant first. -/
def bytesBe16 (v : Half) : List Byte := [v.extractLsb' 8 8, v.extractLsb' 0 8]

/-- `bytes_be32(v)` (R8). -/
def bytesBe32 (v : Word) : List Byte :=
  [v.extractLsb' 24 8, v.extractLsb' 16 8, v.extractLsb' 8 8, v.extractLsb' 0 8]

/-- A frame on a parallel bus, read as a number: offset 0 in the most significant byte (30_encoding.md R76). -/
def packFrame (s : List Byte) : Nat := s.foldl (fun n b => n * 256 + b.toNat) 0

/-- The `n` bytes of a number in the same order, offset 0 the most significant (R76). -/
def unpackFrame : Nat → Nat → List Byte
  | 0, _ => []
  | n + 1, w => BitVec.ofNat 8 (w / 256 ^ n) :: unpackFrame n w

/-! ### Checksum (40_checksum.md R100) -/

/-- The sum of bytes, carries out of bit 7 discarded. -/
def sumBytes : List Byte → Byte
  | [] => 0
  | b :: bs => b + sumBytes bs

/-- `sum8(s, a, b)`, the sum of `s[a]` to `s[b-1]` modulo 256 (R100). -/
def sum8 (s : List Byte) (a b : Nat) : Byte := sumBytes (slice s a b)

/-- The checksum a frame should carry: the sum of offset 2 up to, not including, the last byte (R101, R106). -/
def frameChecksum (f : List Byte) : Byte := sum8 f 2 (f.length - 1)

/-- The frame's last byte is the checksum it should carry (R102, R65). -/
def frameValid (f : List Byte) : Bool := byteAt f (f.length - 1) == frameChecksum f

/-! ### Command frames (30_encoding.md R60 to R63, R69, R71) -/

/-- The kind field of an ENC operation's tag, `op[1:0]` (R71). -/
def Kind.field : Kind → BitVec 2
  | .poll => 0
  | .current => 1
  | .speed => 2
  | .torque => 3

/-- The wire code of a kind: `DD` for kind 0, else `D0` OR the field (R71, R61). -/
def Kind.code (k : Kind) : Byte := if k.field = 0 then discTlm else 0xD0 ||| k.field.setWidth 8

/-- The marker and a code byte, offsets 0 to 2. -/
def frameHead (code : Byte) : List Byte := [marker0, marker1, code]

/-- The frame of a code, a payload and a checksum, whatever the checksum is (R60, R66). -/
def frame8 (code : Byte) (payload : Word) (checksum : Byte) : List Byte :=
  frameHead code ++ bytesBe32 payload ++ [checksum]

/-- The command frame of a kind: its payload is the value, zero for Poll, and its checksum is summed (R60 to R63,
41_command_encoder.md R120). -/
def commandFrame (k : Kind) (value : Word) : List Byte :=
  let p := if k = .poll then 0 else value
  frame8 k.code p (sum8 (frameHead k.code ++ bytesBe32 p) 2 7)

/-- The Poll frame, a literal (R69). -/
def pollFrame : List Byte := [0xEB, 0x90, 0xDD, 0x00, 0x00, 0x00, 0x00, 0xDD]

/-! ### Telemetry frames (R64, 42_telemetry_decoder.md R150, R151) -/

/-- The fields of a 32-byte frame, each at its offset (R64). -/
def telemetryFields (f : List Byte) : TlmFields where
  lastCommand := byteAt f 3
  controlTarget := be32 f 4
  speedFeedback := be32 f 8
  currentFeedback := be32 f 12
  accelerationFeedback := be32 f 16
  commandResponseCount := byteAt f 20
  telemetryCommandCount := byteAt f 21
  errorCommandCount := byteAt f 22
  motherboardCurrent := be16 f 23
  temperature := byteAt f 25
  singleMotorStatus := byteAt f 26
  reserved := ⟨byteAt f 27, byteAt f 28, byteAt f 29, byteAt f 30⟩
  checksum := byteAt f 31

/-- The record of a 32-byte frame (R150). -/
def telemetryRecord (f : List Byte) : TlmRecord where
  toTlmFields := telemetryFields f
  header := ⟨byteAt f 0, byteAt f 1, byteAt f 2⟩

/-- The bytes of the fields in frame order, offsets 3 to 31 (R64). -/
def TlmFields.bytes (t : TlmFields) : List Byte :=
  [t.lastCommand] ++ bytesBe32 t.controlTarget ++ bytesBe32 t.speedFeedback ++ bytesBe32 t.currentFeedback ++
    bytesBe32 t.accelerationFeedback ++
    [t.commandResponseCount, t.telemetryCommandCount, t.errorCommandCount] ++ bytesBe16 t.motherboardCurrent ++
    [t.temperature, t.singleMotorStatus, t.reserved.b0, t.reserved.b1, t.reserved.b2, t.reserved.b3, t.checksum]

/-- A telemetry frame on the wire: `EB 90 DD` and its fields (R64). -/
def TlmFields.frame (t : TlmFields) : List Byte := frameHead discTlm ++ t.bytes

/-- The frame a record was decoded from: every byte of it is in one field (R160). -/
def TlmRecord.frame (r : TlmRecord) : List Byte := [r.header.b0, r.header.b1, r.header.b2] ++ r.bytes

/-- The temperature as a number, -128 to 127 degrees Celsius (R155). -/
def TlmFields.celsius (t : TlmFields) : Int := t.temperature.toInt

/-- The motherboard current as a number, 0 to 65535 (R156). -/
def TlmFields.motherboardReading (t : TlmFields) : Nat := t.motherboardCurrent.toNat

/-- The length of a received frame, decided by its offset-2 byte alone (30_encoding.md R67). -/
def frameLength (disc : Byte) : Nat := if disc = discTlm then lenTlm else lenAck

/-! ### The range check (41_command_encoder.md R121, R122) -/

/-- The bound of a kind in device units: mA, RPM, mN·m; Poll has none (R121). -/
def Kind.limit : Kind → Option Nat
  | .poll => none
  | .current => some 1500
  | .speed => some 6050
  | .torque => some 50

/-- `BMAG`, bits 30:0 of the bound's binary32 pattern (R121). -/
def Kind.boundMagnitude : Kind → Option Nat
  | .poll => none
  | .current => some 0x44BB8000
  | .speed => some 0x45BD1000
  | .torque => some 0x42480000

/-- The value passes its kind's range check, computed on bits 30:0 (R122, R123 to R125); Poll has no range. -/
def inRange (k : Kind) (value : Word) : Bool :=
  match k.boundMagnitude with
  | none => true
  | some bound => decide ((value.extractLsb' 0 31).toNat ≤ bound)

/-- What a binary32 pattern denotes (R10): a finite number is held exactly, as a multiple of `2^-149`. -/
inductive Binary32 where
  | nan
  | infinity (negative : Bool)
  | finite (units : Int)
  deriving DecidableEq, Repr

/-- The magnitude of a finite pattern with this exponent field and fraction, in units of `2^-149` (R10): a
subnormal is its fraction, a normal number its fraction with the hidden bit, shifted. -/
def binary32Magnitude (expo frac : Nat) : Nat :=
  if expo = 0 then frac else (frac + 2 ^ 23) * 2 ^ (expo - 1)

/-- The value of a binary32 pattern: bit 31 sign, bits 30:23 exponent, bits 22:0 fraction (R10). -/
def binary32Value (v : Word) : Binary32 :=
  let negative := v.getLsbD 31
  let expo := (v.extractLsb' 23 8).toNat
  let frac := (v.extractLsb' 0 23).toNat
  if expo = 255 then
    if frac = 0 then .infinity negative else .nan
  else
    .finite (if negative then -(binary32Magnitude expo frac : Int) else (binary32Magnitude expo frac : Int))

/-- The value is a number from `-limit` to `limit`, NaN and the infinities excluded (R122). -/
def realInRange (k : Kind) (value : Word) : Bool :=
  match k.limit with
  | none => true
  | some limit =>
    match binary32Value value with
    | .nan => false
    | .infinity _ => false
    | .finite units => decide (-((limit * 2 ^ 149 : Nat) : Int) ≤ units) && decide (units ≤ ((limit * 2 ^ 149 : Nat) : Int))

end Sys2Proof
end

