-- ==== Sys2Proof/Decode.lean ====
section
/-! DEFINITION. The decoder, total on any bytes and rejecting by name, and after it the encoder; then the layout of
a word of spec/opcode_table.json as the bytes of an issue. -/

namespace Sys2Proof

/-- Why bytes are no instruction. -/
inductive DecodeError where
  /-- The issue holds no byte, so no tag (safe). -/
  | noTag
  /-- The tag is one of the 246 values that select no operation (30_encoding.md R72; safe). -/
  | illegalOp (tag : Byte)
  /-- The operand's bytes are not the operand of the operation (R73, log 2; safe). -/
  | badOperand
  deriving DecidableEq, Repr

/-- The ten operations of R70. -/
inductive Op where
  | encPoll
  | encCurrent
  | encSpeed
  | encTorque
  | cksum
  | validate
  | decodeTlm
  | push
  | pushByte
  | reset
  deriving DecidableEq, Repr

/-- The tags of R70. -/
def Op.tag : Op → Byte
  | .encPoll => 0x10
  | .encCurrent => 0x11
  | .encSpeed => 0x12
  | .encTorque => 0x13
  | .cksum => 0x20
  | .validate => 0x21
  | .decodeTlm => 0x30
  | .push => 0x40
  | .pushByte => 0x41
  | .reset => 0xF0

/-- The operation a tag selects (R70); none for every other value (R72). -/
def opOfTag (tag : Byte) : Option Op :=
  if tag = 0x10 then some .encPoll
  else if tag = 0x11 then some .encCurrent
  else if tag = 0x12 then some .encSpeed
  else if tag = 0x13 then some .encTorque
  else if tag = 0x20 then some .cksum
  else if tag = 0x21 then some .validate
  else if tag = 0x30 then some .decodeTlm
  else if tag = 0x40 then some .push
  else if tag = 0x41 then some .pushByte
  else if tag = 0xF0 then some .reset
  else none

/-- A 32-bit operand: four bytes, most significant first (R41; log 2). -/
def decodeValue (bytes : List Byte) : Except DecodeError Word :=
  if bytes.length = 4 then .ok (be32 bytes 0) else .error .badOperand

/-- The start-of-chunk bit of PUSH_BYTE, held in a byte of its own (R73; log 2). -/
def decodeSop (b : Byte) : Except DecodeError Bool :=
  if b = 0 then .ok false else if b = 1 then .ok true else .error .badOperand

/-- The operand of an operation (R73). Frames and chunks are taken at any length: the operation itself refuses a
length that is not legal (60_exceptions.md R235). -/
def decodeOperand (op : Op) (bytes : List Byte) : Except DecodeError Instr :=
  match op with
  | .encPoll => (decodeValue bytes).map Instr.encPoll
  | .encCurrent => (decodeValue bytes).map Instr.encCurrent
  | .encSpeed => (decodeValue bytes).map Instr.encSpeed
  | .encTorque => (decodeValue bytes).map Instr.encTorque
  | .cksum => .ok (.cksum bytes)
  | .validate => .ok (.validate bytes)
  | .decodeTlm => .ok (.decodeTlm bytes)
  | .push => .ok (.push bytes)
  | .pushByte =>
    if bytes.length = 2 then (decodeSop (byteAt bytes 1)).map (Instr.pushByte (byteAt bytes 0))
    else .error .badOperand
  | .reset => if bytes.length = 0 then .ok .reset else .error .badOperand

/-- An operation: a tag and its operand (R70, R73). -/
def decodeOperation : List Byte → Except DecodeError Instr
  | [] => .error .noTag
  | tag :: operand =>
    match opOfTag tag with
    | none => .error (.illegalOp tag)
    | some op => decodeOperand op operand

/-- The first two bytes are the marker `EB 90`. -/
def beginsWithMarker (f : List Byte) : Bool := byteAt f 0 == marker0 && byteAt f 1 == marker1

/-- Bytes of the link in the host-to-device direction: a frame of R60, R61 or R69, which is eight bytes with one of
the four codes and with the Poll code only the literal. Any other bytes are bytes that arrive, as PUSH takes them
(43_resynchronizer.md R180, R204; log 4). -/
def decodeCommandFrame (f : List Byte) : Instr :=
  if f.length = lenCmd ∧ beginsWithMarker f then
    if byteAt f 2 = Kind.current.code then .cmdCurrent (be32 f 3) (byteAt f 7)
    else if byteAt f 2 = Kind.speed.code then .cmdSpeed (be32 f 3) (byteAt f 7)
    else if byteAt f 2 = Kind.torque.code then .cmdTorque (be32 f 3) (byteAt f 7)
    else if f = pollFrame then .cmdPoll
    else .push f
  else .push f

/-- Bytes of the link in the device-to-host direction: a frame of R64 or R66, which has the length its discriminator
selects (R67). Any other bytes, part of a frame or none, are bytes that arrive, as PUSH takes them
(43_resynchronizer.md R180, R204; log 4). -/
def decodeResponseFrame (f : List Byte) : Instr :=
  if beginsWithMarker f ∧ f.length = frameLength (byteAt f 2) then
    if byteAt f 2 = discTlm then .rspTlm (telemetryFields f)
    else .rspAck (byteAt f 2) (be32 f 3) (byteAt f 7)
  else .push f

/-- The decoder. An operation may be none of R70; bytes on a link always arrive (R68, R204). -/
def decode (issue : Issue) : Except DecodeError Instr :=
  match issue.port with
  | .operation => decodeOperation issue.bytes
  | .commandLink => .ok (decodeCommandFrame issue.bytes)
  | .responseLink => .ok (decodeResponseFrame issue.bytes)

/-! ### The encoder -/

/-- An issue of an operation. -/
def issueOp (op : Op) (operand : List Byte) : Issue := ⟨.operation, op.tag :: operand⟩

/-- The words of an instruction: the tag of R70 and its operand, or the bytes of the wire frame. -/
def encode : Instr → Issue
  | .encPoll value => issueOp .encPoll (bytesBe32 value)
  | .encCurrent value => issueOp .encCurrent (bytesBe32 value)
  | .encSpeed value => issueOp .encSpeed (bytesBe32 value)
  | .encTorque value => issueOp .encTorque (bytesBe32 value)
  | .cksum frame => issueOp .cksum frame
  | .validate frame => issueOp .validate frame
  | .decodeTlm frame => issueOp .decodeTlm frame
  | .push chunk => issueOp .push chunk
  | .pushByte b sop => issueOp .pushByte [b, if sop then 1 else 0]
  | .reset => issueOp .reset []
  | .cmdCurrent payload checksum => ⟨.commandLink, frame8 Kind.current.code payload checksum⟩
  | .cmdSpeed payload checksum => ⟨.commandLink, frame8 Kind.speed.code payload checksum⟩
  | .cmdTorque payload checksum => ⟨.commandLink, frame8 Kind.torque.code payload checksum⟩
  | .cmdPoll => ⟨.commandLink, pollFrame⟩
  | .rspTlm fields => ⟨.responseLink, fields.frame⟩
  | .rspAck disc body checksum => ⟨.responseLink, frame8 disc body checksum⟩

/-! ### Words of the opcode table -/

/-- How many operand bytes of zero stand above a table word that is a tag alone: the shortest legal operand of the
operation (R73; log 10). -/
def zeroOperandBytes (op : Op) : Nat :=
  match op with
  | .encPoll => 4
  | .encCurrent => 4
  | .encSpeed => 4
  | .encTorque => 4
  | .cksum => lenCmd
  | .validate => lenCmd
  | .decodeTlm => lenTlm
  | .push => 1
  | .pushByte => 2
  | .reset => 0

/-- Bytes followed by zeros up to a length. -/
def padTo (n : Nat) (bytes : List Byte) : List Byte := bytes ++ List.replicate (n - bytes.length) 0

/-- The code of a host-to-device frame that is told from a response by its first three bytes. -/
def isCommandCode (c : Byte) : Bool :=
  c == Kind.current.code || c == Kind.speed.code || c == Kind.torque.code

/-- The issue of a word as the opcode table numbers it: eight bits are a tag, more are a frame's first bytes read
big-endian (the table's "match on bytes 0-2 read big-endian"; R76), every later byte zero (log 10). -/
def issueOfTableWord (nbits w : Nat) : Issue :=
  if nbits = 8 then
    let tag : Byte := BitVec.ofNat 8 w
    match opOfTag tag with
    | none => ⟨.operation, [tag]⟩
    | some op => issueOp op (List.replicate (zeroOperandBytes op) 0)
  else
    let bytes := unpackFrame (nbits / 8) w
    let disc := byteAt bytes 2
    if isCommandCode disc || (disc == discTlm && nbits == 64) then ⟨.commandLink, padTo lenCmd bytes⟩
    else ⟨.responseLink, padTo (frameLength disc) bytes⟩

/-- The instruction the decoder reads from a word of the opcode table. -/
def decodeTableWord (nbits w : Nat) : Option Instr :=
  match decode (issueOfTableWord nbits w) with
  | .ok i => some i
  | .error _ => none

end Sys2Proof
end

