-- ==== Sys2Proof/Config.lean ====
section
/-! DEFINITION. The parameters the spec leaves open (00_scope.md R4, 70_reset_and_hazards.md R264): opaque constants,
so that nothing proved of a machine at reset can rest on a value of one of them. -/

namespace Sys2Proof

/-- One less than `CHUNK_MAX`, so that `CHUNK_MAX` is a natural number of at least 1, whatever it is (D13, log 5). -/
opaque Config.chunkMaxPred : Nat

/-- `BYTE_PORT`: whether the byte-serial port is present (D19, log 5). -/
opaque Config.bytePort : Bool

/-- One less than `RING_CAP`, the capacity of the host's ring store; no rule of the FCR reads it (D15, log 7). -/
opaque Config.ringCapPred : Nat

/-- `RESET_ON_START`: whether the host issues RESET when it starts (R264, D18, log 7). -/
opaque Config.resetOnStart : Bool

/-- What is fixed when one FCR is built (R4, R31), together with the host's `RESET_ON_START` (R264). -/
structure Params where
  /-- `CHUNK_MAX`, the largest number of bytes in one chunk. -/
  chunkMax : Nat
  /-- `BYTE_PORT`. -/
  bytePort : Bool
  /-- `RING_CAP`: named by R4, read by no rule of the FCR. -/
  ringCap : Nat
  /-- `RESET_ON_START`, read by the host's lifecycle alone. -/
  resetOnStart : Bool
  deriving DecidableEq, Repr

/-- The open parameters of an FCR as it comes from its builder: no value of them is known. -/
def Config.params : Params where
  chunkMax := Config.chunkMaxPred + 1
  bytePort := Config.bytePort
  ringCap := Config.ringCapPred + 1
  resetOnStart := Config.resetOnStart

/-- `BUF_CAP = 31 + CHUNK_MAX`, the capacity of the decode buffer (R4, R29). -/
def Params.bufCap (p : Params) : Nat := 31 + p.chunkMax

end Sys2Proof
end

