-- ==== Sys2Proof/Machine/State.lean ====
section
/-! DEFINITION. The state of an FCR with the host's interface beside it, the values its operations return, and the
named ways a step can stop. -/

namespace Sys2Proof.Machine

/-- The events of the resynchronizer, exactly three (43_resynchronizer.md R195). -/
inductive Event where
  /-- A telemetry record and the one it is paired with (R196). -/
  | tlm (cur : TlmRecord) (prev : TlmRecord)
  /-- A checksum-valid acknowledgment, its 8 bytes uninterpreted (R197). -/
  | ack (frame : List Byte)
  /-- A candidate of 8 or 32 bytes that failed its checksum (R198). -/
  | ckerr (frame : List Byte)
  deriving DecidableEq, Repr

/-- The value an operation completes with (60_exceptions.md R230). -/
inductive Value where
  /-- RESET's (R260). -/
  | unit
  /-- ENC's command frame (R120). -/
  | frame (bytes : List Byte)
  /-- CKSUM's sum (R101). -/
  | byte (b : Byte)
  /-- VALIDATE's answer (R102). -/
  | bool (b : Bool)
  /-- DECODE_TLM's record (R150). -/
  | record (r : TlmRecord)
  /-- The events of a PUSH, in stream order (R195). -/
  | events (es : List Event)
  deriving DecidableEq, Repr

/-- The error results (R230). -/
inductive ErrorKind where
  /-- The value is outside its kind's range, or NaN (R231). -/
  | outOfRange
  /-- DECODE_TLM's frame fails its checksum (R232). -/
  | checksumError
  /-- Reserved; no operation produces it (R234). -/
  | responseLengthMismatch
  deriving DecidableEq, Repr

/-- The result of an operation (R230). -/
inductive Result where
  | ok (v : Value)
  | err (e : ErrorKind)
  deriving DecidableEq, Repr

/-- What the resynchronizer's scan leaves: its events, the buffer and the previous record (R180). -/
structure ScanResult where
  events : List Event
  buf : List Byte
  prev : Option TlmRecord
  deriving DecidableEq, Repr

/-- One FCR and the host's side of its interface. -/
structure State where
  /-- The block's parameters, which no operation writes (00_scope.md R4, 10_state.md R31; log 5). -/
  params : Params
  /-- The decode buffer, oldest byte first (R20). -/
  buf : List Byte
  /-- The previous-record register (R24). -/
  prev : Option TlmRecord
  /-- The MODEL's own: what the host has issued and the FCR has not yet performed, oldest first (R49; log 1). -/
  input : List Issue
  /-- The MODEL's own: the result of the last operation performed, which the host takes (R195, R230; log 1). -/
  result : Option Result
  deriving DecidableEq, Repr

/-- Why a run is in error. -/
inductive Fault where
  /-- An operation would return the reserved result code 3 (93_implementation_defined.md I11). No operation of the
  spec does (R234), so no run reaches it. Safe. -/
  | reservedResultCode
  deriving DecidableEq, Repr

/-- Why an operation is given no meaning (R235): the run is marked refused and does not go on. -/
inductive Refusal where
  /-- Raised by an arm of `exec` whose instruction has no meaning yet; no arm is. Safe. -/
  | notModelled (mnemonic : String)
  /-- `IllegalOp`: the tag selects no operation (30_encoding.md R72). Raised by `step`. Safe. -/
  | illegalOp (tag : Byte)
  /-- `BadLength`: a frame or chunk of a length that is not legal (R235). Raised by CKSUM, VALIDATE, DECODE_TLM,
  PUSH and by a wire frame longer than a chunk may be. Safe. -/
  | badLength (length : Nat)
  /-- The operand's bytes are not the operand of the operation (R73, log 2). Raised by `step`. Safe. -/
  | badOperand
  /-- The issue holds no tag (log 2). Raised by `step`. Safe. -/
  | noTag
  /-- PUSH_BYTE on a block built without the byte-serial port (R205, log 6). Safe. -/
  | bytePortAbsent
  deriving DecidableEq, Repr

/-- The machine at power-on (10_state.md R32, 70_reset_and_hazards.md R261): the buffer empty, no previous record,
nothing issued, no result yet (log 1), its parameters whatever its builder chose (log 5). -/
def State.reset : State where
  params := Config.params
  buf := []
  prev := none
  input := []
  result := none

end Sys2Proof.Machine
end

