-- ==== Sys2Proof/Machine/Flags.lean ====
section
/-! DEFINITION. The FCR has no flags (10_state.md R30): an outcome is a result. This file gives the results the
numbers of 60_exceptions.md R230. -/

namespace Sys2Proof.Machine

/-- The code of an error (R230). -/
def ErrorKind.code : ErrorKind → Nat
  | .outOfRange => 1
  | .checksumError => 2
  | .responseLengthMismatch => 3

/-- The code of a result: 0 is `Ok` (R230). -/
def Result.code : Result → Nat
  | .ok _ => 0
  | .err e => e.code

/-- The code that no operation may return (R234). -/
def reservedCode : Nat := 3

end Sys2Proof.Machine
end

