-- ==== Sys2Proof/WellFormed.lean ====
section
/-! DEFINITION. Which instructions have legal operands (30_encoding.md R73). -/

namespace Sys2Proof

/-- A frame length the checksum unit accepts (40_checksum.md R101, R102). -/
def legalFrameLength (n : Nat) : Bool := n == 8 || n == 32

/-- The operand has a legal value (R73), for a block with these parameters. PUSH_BYTE needs the byte-serial port
(R205). A wire frame arrives as one chunk of its own (log 3), so the chunk limit covers it too; on the receive side
no discriminator is illegal (R68). -/
def Instr.wellFormed (p : Params) : Instr → Bool
  | .encPoll _ => true
  | .encCurrent _ => true
  | .encSpeed _ => true
  | .encTorque _ => true
  | .cksum frame => legalFrameLength frame.length
  | .validate frame => legalFrameLength frame.length
  | .decodeTlm frame => frame.length == 32
  | .push chunk => decide (1 ≤ chunk.length) && decide (chunk.length ≤ p.chunkMax)
  | .pushByte _ _ => p.bytePort
  | .reset => true
  | .cmdCurrent _ _ => decide (8 ≤ p.chunkMax)
  | .cmdSpeed _ _ => decide (8 ≤ p.chunkMax)
  | .cmdTorque _ _ => decide (8 ≤ p.chunkMax)
  | .cmdPoll => decide (8 ≤ p.chunkMax)
  | .rspTlm _ => decide (32 ≤ p.chunkMax)
  | .rspAck _ _ _ => decide (8 ≤ p.chunkMax)

end Sys2Proof
end

