-- ==== Sys2Proof/Machine/Ops.lean ====
section
/-! DEFINITION. The shared operations: completing with a result (there is no trap: 60_exceptions.md R233), taking the
next issue, the command encoder's and telemetry decoder's cores, and the resynchronizer's scan. -/

namespace Sys2Proof.Machine

/-! ### Completing an operation -/

/-- The operation completes with this result, which the host takes; an error changes nothing else (R230, R233).
The reserved code is a fault (93_implementation_defined.md I11; log 12). -/
def State.complete (s : State) (r : Result) : Host.Outcome State Fault Refusal :=
  if r.code = reservedCode then .fault .reservedResultCode else .next { s with result := some r }

/-- The refusal of bytes that are no instruction (30_encoding.md R72, R73; 60_exceptions.md R235). -/
def refusalOf : DecodeError → Refusal
  | .noTag => .noTag
  | .illegalOp tag => .illegalOp tag
  | .badOperand => .badOperand

/-- The oldest issue not yet performed, and the state without it (20_memory.md R49). -/
def State.takeIssue (s : State) : Option (Issue × State) :=
  match s.input with
  | [] => none
  | issue :: rest => some (issue, { s with input := rest })

/-- Parameters with which a block can perform an issue of the opcode table: PUSH_BYTE needs the byte-serial port, a
wire frame a chunk of 8 or 32 bytes; every other issue runs on every block (log 10). -/
def paramsFor (issue : Issue) (p : Params) : Params where
  chunkMax := if issue.port = .operation then p.chunkMax else p.chunkMax + lenTlm
  bytePort := if issue.bytes.head? = some Op.pushByte.tag then true else p.bytePort
  ringCap := p.ringCap
  resetOnStart := p.resetOnStart

/-- The state with an issue put before all others, on a block that can perform it, so that the next step does
(log 10). -/
def State.present (s : State) (issue : Issue) : State :=
  { s with input := issue :: s.input, params := paramsFor issue s.params }

/-! ### Codec cores -/

/-- ENC: the range check, then the frame (41_command_encoder.md R120). -/
def encodeCommand (k : Kind) (value : Word) : Result :=
  if inRange k value then .ok (.frame (commandFrame k value)) else .err .outOfRange

/-- DECODE_TLM on 32 bytes: the checksum and nothing else is checked (42_telemetry_decoder.md R150, R152, R153). -/
def decodeTelemetry (f : List Byte) : Result :=
  if frameValid f then .ok (.record (telemetryRecord f)) else .err .checksumError

/-! ### The resynchronizer (43_resynchronizer.md) -/

/-- Step 3: the least offset at which `EB 90` stands (R183). -/
def findMarker : List Byte → Option Nat
  | a :: b :: rest =>
    if a = marker0 ∧ b = marker1 then some 0 else (findMarker (b :: rest)).map (· + 1)
  | _ => none

/-- What the buffer keeps when it holds no marker: a trailing `EB`, else nothing (R183). -/
def trimNoMarker (buf : List Byte) : List Byte :=
  if buf.getLast? = some marker0 then [marker0] else []

/-- Steps 9 to 11: the event of a candidate frame and the previous record after it (R189 to R191). -/
def judge (f : List Byte) (prev : Option TlmRecord) : Event × Option TlmRecord :=
  if frameValid f then
    if f.length = lenTlm then
      let r := telemetryRecord f
      (.tlm r (prev.getD r), some r)
    else (.ack f, prev)
  else (.ckerr f, prev)

/-- SCAN, steps 3 to 11 (R180), for at most `fuel` passes. Every pass that goes on removes at least 8 bytes (R192),
so as many passes as there are bytes are never used up. -/
def scanLoop : Nat → List Byte → Option TlmRecord → ScanResult
  | 0, buf, prev => ⟨[], buf, prev⟩
  | fuel + 1, buf, prev =>
    match findMarker buf with
    | none => ⟨[], trimNoMarker buf, prev⟩
    | some p =>
      let b := buf.drop p
      let len := frameLength (byteAt b 2)
      if b.length < 3 then ⟨[], b, prev⟩
      else if b.length < len then ⟨[], b, prev⟩
      else
        let j := judge (b.take len) prev
        let r := scanLoop fuel (b.drop len) j.2
        ⟨j.1 :: r.events, r.buf, r.prev⟩

/-- SCAN (R180). -/
def scan (buf : List Byte) (prev : Option TlmRecord) : ScanResult := scanLoop buf.length buf prev

/-- Step 1: bytes that begin a chunk with `EB` clear the buffer (R181, R205). -/
def clearOnMarker (sop : Bool) (bytes buf : List Byte) : List Byte :=
  if sop && bytes.head? == some marker0 then [] else buf

/-- Steps 1 to 11 on arriving bytes; `sop` says that they begin a chunk (R180, R205). -/
def receive (sop : Bool) (bytes buf : List Byte) (prev : Option TlmRecord) : ScanResult :=
  scan (clearOnMarker sop bytes buf ++ bytes) prev

/-- The bytes arrive: the buffer and the previous record change and the events are the result (R180, R195). -/
def State.arrive (s : State) (sop : Bool) (bytes : List Byte) : Host.Outcome State Fault Refusal :=
  let r := receive sop bytes s.buf s.prev
  { s with buf := r.buf, prev := r.prev }.complete (.ok (.events r.events))

/-- A chunk arrives; one of no byte or of more than `CHUNK_MAX` is refused (R180, R235). -/
def State.pushChunk (s : State) (chunk : List Byte) : Host.Outcome State Fault Refusal :=
  if chunk.length = 0 ∨ chunk.length > s.params.chunkMax then .refused (.badLength chunk.length)
  else s.arrive true chunk

end Sys2Proof.Machine
end

