-- ==== Sys2Proof/Machine/Checksum.lean ====
section
/-! DEFINITION. The checksum unit's operations (40_checksum.md). -/

namespace Sys2Proof.Machine

/-- CKSUM: the checksum the frame should carry (R101). -/
def execCksum (frame : List Byte) (s : State) : Host.Outcome State Fault Refusal :=
  if legalFrameLength frame.length then s.complete (.ok (.byte (frameChecksum frame)))
  else .refused (.badLength frame.length)

/-- VALIDATE: whether the frame's last byte is that checksum; a wrong one is no error (R102). -/
def execValidate (frame : List Byte) (s : State) : Host.Outcome State Fault Refusal :=
  if legalFrameLength frame.length then s.complete (.ok (.bool (frameValid frame)))
  else .refused (.badLength frame.length)

end Sys2Proof.Machine
end

