-- ==== Sys2Proof/Machine/Encoder.lean ====
section
/-! DEFINITION. The command encoder's operations (41_command_encoder.md). They read their operand alone (R128). -/

namespace Sys2Proof.Machine

/-- ENC POLL: the literal frame, whatever the value (R126). -/
def execEncPoll (_value : Word) (s : State) : Host.Outcome State Fault Refusal :=
  s.complete (.ok (.frame pollFrame))

/-- ENC CURRENT (R123). -/
def execEncCurrent (value : Word) (s : State) : Host.Outcome State Fault Refusal :=
  s.complete (encodeCommand .current value)

/-- ENC SPEED (R124). -/
def execEncSpeed (value : Word) (s : State) : Host.Outcome State Fault Refusal :=
  s.complete (encodeCommand .speed value)

/-- ENC TORQUE (R125). -/
def execEncTorque (value : Word) (s : State) : Host.Outcome State Fault Refusal :=
  s.complete (encodeCommand .torque value)

end Sys2Proof.Machine
end

