-- ==== Sys2Proof/Machine/Link.lean ====
section
/-! DEFINITION. The wire frames of the opcode table. What the spec says the FCR does with a frame is what its
resynchronizer does when the frame's bytes arrive (41_command_encoder.md R131; 43_resynchronizer.md R190, R191;
70_reset_and_hazards.md R267); here each arrives as one chunk of its own (log 3). -/

namespace Sys2Proof.Machine

/-- CMD.CURRENT echoed on the link: taken as an acknowledgment (R131). -/
def execCmdCurrent (payload : Word) (checksum : Byte) (s : State) : Host.Outcome State Fault Refusal :=
  s.pushChunk (frame8 Kind.current.code payload checksum)

/-- CMD.SPEED echoed on the link: taken as an acknowledgment (R131). -/
def execCmdSpeed (payload : Word) (checksum : Byte) (s : State) : Host.Outcome State Fault Refusal :=
  s.pushChunk (frame8 Kind.speed.code payload checksum)

/-- CMD.TORQUE echoed on the link: taken as an acknowledgment (R131). -/
def execCmdTorque (payload : Word) (checksum : Byte) (s : State) : Host.Outcome State Fault Refusal :=
  s.pushChunk (frame8 Kind.torque.code payload checksum)

/-- CMD.POLL echoed on the link: taken as the start of a telemetry frame (R131, R267). -/
def execCmdPoll (s : State) : Host.Outcome State Fault Refusal := s.pushChunk pollFrame

/-- RSP.TLM: a telemetry frame arrives (R190). -/
def execRspTlm (fields : TlmFields) (s : State) : Host.Outcome State Fault Refusal := s.pushChunk fields.frame

/-- RSP.ACK: an acknowledgment arrives (R191). With `DD` at offset 2 the eight bytes are none (R66): they are the
start of a telemetry frame and wait as one (R67, R187). -/
def execRspAck (disc : Byte) (body : Word) (checksum : Byte) (s : State) : Host.Outcome State Fault Refusal :=
  s.pushChunk (frame8 disc body checksum)

end Sys2Proof.Machine
end

