-- ==== Sys2Proof/Machine/Resync.lean ====
section
/-! DEFINITION. The resynchronizer's operations (43_resynchronizer.md, 70_reset_and_hazards.md). -/

namespace Sys2Proof.Machine

/-- PUSH: one chunk of received bytes (R180). -/
def execPush (chunk : List Byte) (s : State) : Host.Outcome State Fault Refusal := s.pushChunk chunk

/-- PUSH_BYTE: one received byte, on a block that has the byte-serial port (R205; log 6). -/
def execPushByte (b : Byte) (sop : Bool) (s : State) : Host.Outcome State Fault Refusal :=
  if s.params.bytePort then s.arrive sop [b] else .refused .bytePortAbsent

/-- RESET: the buffer and the previous record take their reset values (R260). -/
def execReset (s : State) : Host.Outcome State Fault Refusal :=
  { s with buf := [], prev := none }.complete (.ok .unit)

end Sys2Proof.Machine
end

