-- ==== Sys2Proof/Machine/Telemetry.lean ====
section
/-! DEFINITION. The telemetry decoder's operation (42_telemetry_decoder.md). -/

namespace Sys2Proof.Machine

/-- DECODE_TLM: the record of a 32-byte frame, or `ChecksumError` (R150, R152). -/
def execDecodeTlm (frame : List Byte) (s : State) : Host.Outcome State Fault Refusal :=
  if frame.length = lenTlm then s.complete (decodeTelemetry frame) else .refused (.badLength frame.length)

end Sys2Proof.Machine
end

