-- ==== Sys2Proof/Machine/Dispatch.lean ====
section
/-! DEFINITION. What each instruction does: one arm per constructor. -/

namespace Sys2Proof.Machine

def exec (i : Instr) (s : State) : Host.Outcome State Fault Refusal :=
  match i with
  | .encPoll value => Sys2Proof.Machine.execEncPoll value s
  | .encCurrent value => Sys2Proof.Machine.execEncCurrent value s
  | .encSpeed value => Sys2Proof.Machine.execEncSpeed value s
  | .encTorque value => Sys2Proof.Machine.execEncTorque value s
  | .cksum frame => Sys2Proof.Machine.execCksum frame s
  | .validate frame => Sys2Proof.Machine.execValidate frame s
  | .decodeTlm frame => Sys2Proof.Machine.execDecodeTlm frame s
  | .push chunk => Sys2Proof.Machine.execPush chunk s
  | .pushByte b sop => Sys2Proof.Machine.execPushByte b sop s
  | .reset => Sys2Proof.Machine.execReset s
  | .cmdCurrent payload checksum => Sys2Proof.Machine.execCmdCurrent payload checksum s
  | .cmdSpeed payload checksum => Sys2Proof.Machine.execCmdSpeed payload checksum s
  | .cmdTorque payload checksum => Sys2Proof.Machine.execCmdTorque payload checksum s
  | .cmdPoll => Sys2Proof.Machine.execCmdPoll s
  | .rspTlm fields => Sys2Proof.Machine.execRspTlm fields s
  | .rspAck disc body checksum => Sys2Proof.Machine.execRspAck disc body checksum s

end Sys2Proof.Machine
end

