-- ==== Sys2Proof/Machine/Step.lean ====
section
/-! DEFINITION. One step: the oldest issued operation is decoded and performed. -/

namespace Sys2Proof.Machine

/-- One step. The FCR fetches nothing of its own (10_state.md R27): the next operation is what the host issued. With
nothing issued it answers the same state, whole (log 1; R245 says it of `buf` and `prev`). Bytes that are no
instruction are refused: an unknown tag by R235, the others by log 2. -/
def step (s : State) : Host.Outcome State Fault Refusal :=
  match s.takeIssue with
  | none => .next s
  | some (issue, t) =>
    match decode issue with
    | .error e => .refused (refusalOf e)
    | .ok i => exec i t

/-- The state whose next step performs the instruction of this word of the opcode table (log 10). -/
def State.withFetchWord (s : State) (nbits w : Nat) : State := s.present (issueOfTableWord nbits w)

end Sys2Proof.Machine
end

