-- ==== Sys2Proof/Machine/Assembler.lean ====
section
/-! DEFINITION. The assembler notation (30_encoding.md R74) with its pseudo-operations and its notation for results
(R75), and the conversion of a decimal literal to the nearest binary32 value. The assembler is the host's; nothing of it runs in the FCR. -/

namespace Sys2Proof.Machine

/-! ### Decimal literals (R74; 70_reset_and_hazards.md R269) -/

/-- The quotient `n / d` rounded to the nearest natural number, ties to even. -/
def roundHalfEven (n d : Nat) : Nat :=
  let q := n / d
  let twice := 2 * (n % d)
  if twice < d then q else if d < twice then q + 1 else q + q % 2

/-- The exponent of the power of two at or below `num / den`, for positive numbers. -/
def floorLog2 (num den : Nat) : Int :=
  let e : Int := (Nat.log2 num : Int) - (Nat.log2 den : Int)
  if num * 2 ^ (-e).toNat < den * 2 ^ e.toNat then e - 1 else e

/-- Bits 30:0 of the binary32 value nearest `num / den`, ties to even (R74). The unit in the last place is `2^k`;
a carry out of the fraction raises the exponent by itself, and what lies past the largest finite value is infinity. -/
def nearestMagnitude (num den : Nat) : Nat :=
  if num = 0 then 0
  else
    let k : Int := max (floorLog2 num den - 23) (-149)
    let m := roundHalfEven (num * 2 ^ (-k).toNat) (den * 2 ^ k.toNat)
    min ((k + 149).toNat * 2 ^ 23 + m) 0x7F800000

/-- The binary32 pattern nearest to plus or minus `num / den`. -/
def nearestBinary32 (negative : Bool) (num den : Nat) : Word :=
  BitVec.ofNat 32 (nearestMagnitude num den + if negative then 2 ^ 31 else 0)

/-! ### Tokens -/

/-- The tokens of a line. -/
inductive Token where
  | word (cs : List Char)
  | comma
  | openBracket
  | closeBracket
  deriving DecidableEq, Repr

/-- The word read so far, kept in reverse, put before the tokens that follow it. -/
def flushWord (acc : List Char) (rest : List Token) : List Token :=
  match acc with
  | [] => rest
  | _ :: _ => .word acc.reverse :: rest

/-- A line's tokens: `;` starts a comment (R74). -/
def tokenize : List Char → List Char → List Token
  | [], acc => flushWord acc []
  | c :: cs, acc =>
    if c = ';' then flushWord acc []
    else if c = ' ' ∨ c = '\t' then flushWord acc (tokenize cs [])
    else if c = ',' then flushWord acc (.comma :: tokenize cs [])
    else if c = '[' then flushWord acc (.openBracket :: tokenize cs [])
    else if c = ']' then flushWord acc (.closeBracket :: tokenize cs [])
    else tokenize cs (c :: acc)

/-! ### Literals -/

/-- A decimal digit. -/
def digitValue (c : Char) : Option Nat :=
  if '0'.toNat ≤ c.toNat ∧ c.toNat ≤ '9'.toNat then some (c.toNat - '0'.toNat) else none

/-- A hexadecimal digit, of either case. -/
def hexValue (c : Char) : Option Nat :=
  if 'A'.toNat ≤ c.toNat ∧ c.toNat ≤ 'F'.toNat then some (c.toNat - 'A'.toNat + 10)
  else if 'a'.toNat ≤ c.toNat ∧ c.toNat ≤ 'f'.toNat then some (c.toNat - 'a'.toNat + 10)
  else digitValue c

/-- Digits in a base, most significant first, after the number read so far. -/
def readDigits (digit : Char → Option Nat) (base : Nat) : Nat → List Char → Option Nat
  | n, [] => some n
  | n, c :: cs => (digit c).bind fun d => readDigits digit base (n * base + d) cs

/-- A hexadecimal number of exactly this many digits. -/
def readHex (digits : Nat) (cs : List Char) : Option Nat :=
  if cs.length = digits then readDigits hexValue 16 0 cs else none

/-- A byte: two hexadecimal digits (R74). -/
def readByte (cs : List Char) : Option Byte := (readHex 2 cs).map (BitVec.ofNat 8)

/-- An unsigned decimal literal as a fraction: digits, and after a point more digits (log 14). -/
def readDecimal (cs : List Char) : Option (Nat × Nat) :=
  let whole := cs.takeWhile (· ≠ '.')
  let part := (cs.dropWhile (· ≠ '.')).drop 1
  if whole = [] ∨ (cs.contains '.' ∧ part = []) then none
  else (readDigits digitValue 10 0 (whole ++ part)).map fun n => (n, 10 ^ part.length)

/-- The operand of ENC: `0x` and eight hexadecimal digits, or a decimal literal with an optional sign (R74). -/
def readValue (cs : List Char) : Option Word :=
  match cs with
  | '0' :: 'x' :: hex => (readHex 8 hex).map (BitVec.ofNat 32)
  | '-' :: dec => (readDecimal dec).map fun q => nearestBinary32 true q.1 q.2
  | '+' :: dec => (readDecimal dec).map fun q => nearestBinary32 false q.1 q.2
  | dec => (readDecimal dec).map fun q => nearestBinary32 false q.1 q.2

/-! ### Lines -/

/-- Why a line is no operation. -/
inductive AsmError where
  | unknownOperation
  | badOperand
  deriving DecidableEq, Repr

/-- An ENC with a value: a comma, the value. -/
def asmValue (make : Word → Instr) (rest : List Token) : Except AsmError Instr :=
  match rest with
  | [.word w] =>
    match readValue w with
    | some v => .ok (make v)
    | none => .error .badOperand
  | _ => .error .badOperand

/-- The bytes up to the closing bracket, which ends the line. -/
def asmBytes : List Token → Option (List Byte)
  | [.closeBracket] => some []
  | .word w :: rest => (readByte w).bind fun b => (asmBytes rest).map (b :: ·)
  | _ => none

/-- A bracketed byte sequence. -/
def asmFrame (make : List Byte → Instr) (rest : List Token) : Except AsmError Instr :=
  match rest with
  | .openBracket :: more =>
    match asmBytes more with
    | some f => .ok (make f)
    | none => .error .badOperand
  | _ => .error .badOperand

/-- The kinds of ENC: `ENC POLL` takes a value or none (R74). -/
def asmEnc (rest : List Token) : Except AsmError Instr :=
  match rest with
  | .word kind :: .comma :: value =>
    if kind = "CURRENT".toList then asmValue Instr.encCurrent value
    else if kind = "SPEED".toList then asmValue Instr.encSpeed value
    else if kind = "TORQUE".toList then asmValue Instr.encTorque value
    else if kind = "POLL".toList then asmValue Instr.encPoll value
    else .error .badOperand
  | [.word kind] => if kind = "POLL".toList then .ok (.encPoll 0) else .error .badOperand
  | _ => .error .badOperand

/-- `PUSHB <b>` and `PUSHB <b>, SOP` (R74). -/
def asmPushByte (rest : List Token) : Except AsmError Instr :=
  match rest with
  | [.word w] =>
    match readByte w with
    | some b => .ok (.pushByte b false)
    | none => .error .badOperand
  | [.word w, .comma, .word flag] =>
    match readByte w with
    | some b => if flag = "SOP".toList then .ok (.pushByte b true) else .error .badOperand
    | none => .error .badOperand
  | _ => .error .badOperand

/-- An operation with no operand. -/
def asmBare (i : Instr) (rest : List Token) : Except AsmError Instr :=
  match rest with
  | [] => .ok i
  | _ :: _ => .error .badOperand

/-- An operation by its name (R74) or a pseudo-operation by its expansion (R75). -/
def asmOperation (name : List Char) (rest : List Token) : Except AsmError Instr :=
  if name = "ENC".toList then asmEnc rest
  else if name = "CKSUM".toList then asmFrame Instr.cksum rest
  else if name = "VALIDATE".toList then asmFrame Instr.validate rest
  else if name = "DECODE_TLM".toList then asmFrame Instr.decodeTlm rest
  else if name = "PUSH".toList then asmFrame Instr.push rest
  else if name = "PUSHB".toList then asmPushByte rest
  else if name = "RESET".toList then asmBare .reset rest
  else if name = "SET_SPEED".toList then asmValue Instr.encSpeed rest
  else if name = "SET_TORQUE".toList then asmValue Instr.encTorque rest
  else if name = "SET_CURRENT".toList then asmValue Instr.encCurrent rest
  else if name = "POLL_STATUS".toList then asmBare (.encPoll 0) rest
  else .error .unknownOperation

/-- One line: nothing where it holds no token (R74). -/
def assembleLine (line : String) : Except AsmError (Option Instr) :=
  match tokenize line.toList [] with
  | [] => .ok none
  | .word name :: rest => (asmOperation name rest).map some
  | _ :: _ => .error .unknownOperation

/-- A program: a list of operations, one a line (R74). -/
def assemble : List String → Except AsmError (List Instr)
  | [] => .ok []
  | line :: lines =>
    match assembleLine line with
    | .error e => .error e
    | .ok none => assemble lines
    | .ok (some i) => (assemble lines).map (i :: ·)

/-! ### Results as R75 writes them -/

/-- A hexadecimal digit, in capitals. -/
def hexDigit (n : Nat) : Char := if n < 10 then Char.ofNat ('0'.toNat + n) else Char.ofNat ('A'.toNat + (n - 10))

/-- Bytes as two hexadecimal digits each, separated by blanks. -/
def writeBytes : List Byte → List Char
  | [] => []
  | [b] => [hexDigit (b.toNat / 16), hexDigit (b.toNat % 16)]
  | b :: bs => hexDigit (b.toNat / 16) :: hexDigit (b.toNat % 16) :: ' ' :: writeBytes bs

/-- An event; a record is written as the frame it was decoded from (log 14). -/
def writeEvent : Event → List Char
  | .tlm cur prev => "TLM(".toList ++ writeBytes cur.frame ++ ", ".toList ++ writeBytes prev.frame ++ ")".toList
  | .ack f => "ACK(".toList ++ writeBytes f ++ ")".toList
  | .ckerr f => "CKERR(".toList ++ writeBytes f ++ ")".toList

/-- Events separated by commas. -/
def writeEvents : List Event → List Char
  | [] => []
  | [e] => writeEvent e
  | e :: es => writeEvent e ++ ", ".toList ++ writeEvents es

/-- A value after `Ok`; the events of a PUSH stand in a bracket of their own. -/
def writeValue : Value → List Char
  | .unit => "Ok".toList
  | .frame f => "Ok(".toList ++ writeBytes f ++ ")".toList
  | .byte b => "Ok(".toList ++ writeBytes [b] ++ ")".toList
  | .bool b => if b then "Ok(true)".toList else "Ok(false)".toList
  | .record r => "Ok(".toList ++ writeBytes r.frame ++ ")".toList
  | .events es => "events [".toList ++ writeEvents es ++ "]".toList

/-- The name of an error (60_exceptions.md R230). -/
def writeError : ErrorKind → List Char
  | .outOfRange => "OutOfRange".toList
  | .checksumError => "ChecksumError".toList
  | .responseLengthMismatch => "ResponseLengthMismatch".toList

/-- A result as R75 writes it. -/
def writeResult : Result → String
  | .ok v => String.ofList ("=> ".toList ++ writeValue v)
  | .err e => String.ofList ("=> Err(".toList ++ writeError e ++ ")".toList)

end Sys2Proof.Machine
end

