-- ==== Sys2Proof/Machine/Platform.lean ====
section
/-! DEFINITION. What the host does around an FCR (60_exceptions.md R236, R241, R242; 70_reset_and_hazards.md R264):
issuing operations, its start, the frame it may enqueue, and several FCRs side by side. -/

namespace Sys2Proof.Machine

/-- The host issues operations, in this order, after those it issued before (20_memory.md R49). -/
def State.issue (s : State) (is : List Instr) : State := { s with input := s.input ++ is.map encode }

/-- The host's `start`: it acts on the FCR only by issuing RESET, where `RESET_ON_START` says so (R264). -/
def State.hostStart (s : State) : State := if s.params.resetOnStart then s.issue [.reset] else s

/-- The frame the host may enqueue: the one an ENC has just returned with `Ok`, and none otherwise (R236, R127). -/
def State.outgoingFrame (s : State) : Option (List Byte) :=
  match s.result with
  | some (.ok (.frame f)) => some f
  | _ => none

/-- The events the host takes with the last operation's result (R195). -/
def State.emitted (s : State) : List Event :=
  match s.result with
  | some (.ok (.events es)) => es
  | _ => []

/-- Several FCRs, one per wheel (10_state.md R33, R242). -/
abbrev Fleet := List State

/-- A step of the FCR at this place; the others take no part in it (R33). -/
def Fleet.stepAt (fleet : Fleet) (k : Nat) : Option Fleet :=
  match fleet[k]? with
  | none => none
  | some s =>
    match step s with
    | .next t => some (fleet.set k t)
    | .fault _ => none
    | .refused _ => none

end Sys2Proof.Machine
end

