-- ==== Sys2Proof/Safety.lean ====
section
/-! DEFINITION. The terms in which claims about the FCR are stated: the shapes of the buffer, sound records, events
and results, the machine's invariant, runs of operations with their events, and the source's literal reading of the
marker search, against which the model's is compared. -/

namespace Sys2Proof.Machine

/-! ### The invariant -/

/-- The four shapes the buffer has between operations (10_state.md R21). -/
abbrev BufShape (b : List Byte) : Prop :=
  b = [] ∨ b = [marker0] ∨ b = [marker0, marker1] ∨
    (b.take 2 = [marker0, marker1] ∧ 3 ≤ b.length ∧ b.length < frameLength (byteAt b 2))

/-- A record of the resynchronizer: built from a checksum-valid frame that begins `EB 90 DD` (R153, R161). -/
abbrev RecordSound (r : TlmRecord) : Prop :=
  r.header = ⟨marker0, marker1, discTlm⟩ ∧ frameValid r.frame = true

/-- What an event may carry (43_resynchronizer.md R196 to R198). -/
def EventSound : Event → Prop
  | .tlm cur prev => RecordSound cur ∧ RecordSound prev
  | .ack f =>
    f.take 2 = [marker0, marker1] ∧ f.length = lenAck ∧ byteAt f 2 ≠ discTlm ∧ frameValid f = true
  | .ckerr f =>
    f.take 2 = [marker0, marker1] ∧ f.length = frameLength (byteAt f 2) ∧ frameValid f = false

/-- What a result may hold: a valid 8-byte command frame with one of the four codes (41_command_encoder.md R131), a
record whose frame is valid (R161), sound events, and never the reserved error (R234). -/
def ResultSound : Result → Prop
  | .ok .unit => True
  | .ok (.frame f) =>
    f.take 2 = [marker0, marker1] ∧ f.length = lenCmd ∧ (∃ k : Kind, byteAt f 2 = k.code) ∧ frameValid f = true
  | .ok (.byte _) => True
  | .ok (.bool _) => True
  | .ok (.record r) => frameValid r.frame = true
  | .ok (.events es) => ∀ e ∈ es, EventSound e
  | .err e => e ≠ .responseLengthMismatch

/-- The invariant of one FCR: parameters of at least 1 (R4), a buffer of a legal shape (R21), a sound previous
record (R24, R161) and a sound last result. -/
def Inv (s : State) : Prop :=
  1 ≤ s.params.chunkMax ∧ 1 ≤ s.params.ringCap ∧ BufShape s.buf ∧ (∀ r, s.prev = some r → RecordSound r) ∧
    ∀ r, s.result = some r → ResultSound r

/-! ### Operations by kind -/

/-- The ENC operation of a kind (R70, R71). -/
def encInstr : Kind → Word → Instr
  | .poll, v => .encPoll v
  | .current, v => .encCurrent v
  | .speed, v => .encSpeed v
  | .torque, v => .encTorque v

/-- The operations of the units that hold no state (00_scope.md R2). -/
def Instr.stateless : Instr → Bool
  | .encPoll _ => true
  | .encCurrent _ => true
  | .encSpeed _ => true
  | .encTorque _ => true
  | .cksum _ => true
  | .validate _ => true
  | .decodeTlm _ => true
  | .push _ => false
  | .pushByte _ _ => false
  | .reset => false
  | .cmdCurrent _ _ => false
  | .cmdSpeed _ _ => false
  | .cmdTorque _ _ => false
  | .cmdPoll => false
  | .rspTlm _ => false
  | .rspAck _ _ _ => false

/-- The bytes an instruction makes arrive, and whether they begin a chunk; none for one that receives nothing. -/
def arrivalOf : Instr → Option (Bool × List Byte)
  | .encPoll _ => none
  | .encCurrent _ => none
  | .encSpeed _ => none
  | .encTorque _ => none
  | .cksum _ => none
  | .validate _ => none
  | .decodeTlm _ => none
  | .push chunk => some (true, chunk)
  | .pushByte b sop => some (sop, [b])
  | .reset => none
  | .cmdCurrent payload checksum => some (true, frame8 Kind.current.code payload checksum)
  | .cmdSpeed payload checksum => some (true, frame8 Kind.speed.code payload checksum)
  | .cmdTorque payload checksum => some (true, frame8 Kind.torque.code payload checksum)
  | .cmdPoll => some (true, pollFrame)
  | .rspTlm fields => some (true, fields.frame)
  | .rspAck disc body checksum => some (true, frame8 disc body checksum)

/-- The record of the last telemetry event of a list; none where it holds none. -/
def lastRecord : List Event → Option TlmRecord
  | [] => none
  | .tlm cur _ :: es => some ((lastRecord es).getD cur)
  | .ack _ :: es => lastRecord es
  | .ckerr _ :: es => lastRecord es

/-! ### Runs -/

/-- The instructions performed one after another: all events in order, and the buffer and previous record they
leave; none where one of them does not complete. -/
def resyncRun : List Instr → State → Option ScanResult
  | [], s => some ⟨[], s.buf, s.prev⟩
  | i :: is, s =>
    match exec i s with
    | .next t => (resyncRun is t).map fun r => ⟨t.emitted ++ r.events, r.buf, r.prev⟩
    | .fault _ => none
    | .refused _ => none

/-- A chunk delivered byte by byte, the start-of-chunk bit on its first byte (43_resynchronizer.md R206). -/
def byteSerial : List Byte → List Instr
  | [] => []
  | b :: bs => .pushByte b true :: bs.map fun c => .pushByte c false

/-! ### Streams of frames (R203) -/

/-- `EB 90` stands nowhere in these bytes. -/
def HoldsNoMarker (g : List Byte) : Prop :=
  ∀ p, p + 1 < g.length → ¬(byteAt g p = marker0 ∧ byteAt g (p + 1) = marker1)

/-- A well-formed frame: it begins `EB 90`, has the length its offset 2 selects and a matching checksum (R203). -/
abbrev WellFormedFrame (f : List Byte) : Prop :=
  f.take 2 = [marker0, marker1] ∧ f.length = frameLength (byteAt f 2) ∧ frameValid f = true

/-- One event for each frame, in order, from this previous record on: TLM for 32 bytes, ACK for 8 (R190, R191). -/
def eventPerFrame : List (List Byte) → Option TlmRecord → List Event
  | [], _ => []
  | f :: fs, prev =>
    if f.length = lenTlm then
      .tlm (telemetryRecord f) (prev.getD (telemetryRecord f)) :: eventPerFrame fs (some (telemetryRecord f))
    else .ack f :: eventPerFrame fs prev

/-! ### The source's literal reading of step 3 (R207) -/

/-- SCAN with the source's "keep waiting": where no marker stands in the buffer, all of it is kept. -/
def scanLiteralLoop : Nat → List Byte → Option TlmRecord → ScanResult
  | 0, buf, prev => ⟨[], buf, prev⟩
  | fuel + 1, buf, prev =>
    match findMarker buf with
    | none => ⟨[], buf, prev⟩
    | some p =>
      let b := buf.drop p
      let len := frameLength (byteAt b 2)
      if b.length < 3 then ⟨[], b, prev⟩
      else if b.length < len then ⟨[], b, prev⟩
      else
        let j := judge (b.take len) prev
        let r := scanLiteralLoop fuel (b.drop len) j.2
        ⟨j.1 :: r.events, r.buf, r.prev⟩

/-- The events of a sequence of instructions on a resynchronizer that keeps every byte until a marker is found. -/
def literalEvents : List Instr → List Byte → Option TlmRecord → List Event
  | [], _, _ => []
  | i :: is, buf, prev =>
    match arrivalOf i with
    | some (sop, bytes) =>
      let whole := clearOnMarker sop bytes buf ++ bytes
      let r := scanLiteralLoop whole.length whole prev
      r.events ++ literalEvents is r.buf r.prev
    | none => if i = .reset then literalEvents is [] none else literalEvents is buf prev

end Sys2Proof.Machine
end

