-- ==== Sys2Proof/Certificates/Slice0/Obligations.lean ====
section
/-! DEFINITION. The statements for the provers. Each names the rule of spec/ it formalises; where one rests on a
choice of the model, its docstring names the log entry. -/

open Sys2Proof Sys2Proof.Machine

/-! ### Command encoder (41_command_encoder.md) -/

/-- R123: ENC CURRENT checks bits 30:0 against 1500.0 and builds the frame with code `D1`; an error changes nothing
but the result. -/
def Obligations.EncCurrentChecksRangeAndBuildsFrame : Prop :=
  ∀ (v : Word) (s : State),
    ((v.extractLsb' 0 31).toNat ≤ 0x44BB8000 →
      exec (.encCurrent v) s =
        .next { s with result := some (.ok (.frame [0xEB, 0x90, 0xD1, v.extractLsb' 24 8, v.extractLsb' 16 8,
          v.extractLsb' 8 8, v.extractLsb' 0 8,
          0xD1 + v.extractLsb' 24 8 + v.extractLsb' 16 8 + v.extractLsb' 8 8 + v.extractLsb' 0 8])) }) ∧
    (0x44BB8000 < (v.extractLsb' 0 31).toNat →
      exec (.encCurrent v) s = .next { s with result := some (.err .outOfRange) })

/-- R124: ENC SPEED checks bits 30:0 against 6050.0 and builds the frame with code `D2`. -/
def Obligations.EncSpeedChecksRangeAndBuildsFrame : Prop :=
  ∀ (v : Word) (s : State),
    ((v.extractLsb' 0 31).toNat ≤ 0x45BD1000 →
      exec (.encSpeed v) s =
        .next { s with result := some (.ok (.frame [0xEB, 0x90, 0xD2, v.extractLsb' 24 8, v.extractLsb' 16 8,
          v.extractLsb' 8 8, v.extractLsb' 0 8,
          0xD2 + v.extractLsb' 24 8 + v.extractLsb' 16 8 + v.extractLsb' 8 8 + v.extractLsb' 0 8])) }) ∧
    (0x45BD1000 < (v.extractLsb' 0 31).toNat →
      exec (.encSpeed v) s = .next { s with result := some (.err .outOfRange) })

/-- R125: ENC TORQUE checks bits 30:0 against 50.0 and builds the frame with code `D3`. -/
def Obligations.EncTorqueChecksRangeAndBuildsFrame : Prop :=
  ∀ (v : Word) (s : State),
    ((v.extractLsb' 0 31).toNat ≤ 0x42480000 →
      exec (.encTorque v) s =
        .next { s with result := some (.ok (.frame [0xEB, 0x90, 0xD3, v.extractLsb' 24 8, v.extractLsb' 16 8,
          v.extractLsb' 8 8, v.extractLsb' 0 8,
          0xD3 + v.extractLsb' 24 8 + v.extractLsb' 16 8 + v.extractLsb' 8 8 + v.extractLsb' 0 8])) }) ∧
    (0x42480000 < (v.extractLsb' 0 31).toNat →
      exec (.encTorque v) s = .next { s with result := some (.err .outOfRange) })

/-- R126: ENC POLL returns the literal frame for every value. -/
def Obligations.EncPollReturnsLiteralFrame : Prop :=
  ∀ (v : Word) (s : State),
    exec (.encPoll v) s =
      .next { s with result := some (.ok (.frame [0xEB, 0x90, 0xDD, 0x00, 0x00, 0x00, 0x00, 0xDD])) }

/-- R130: the literal is the frame that the common form gives for Poll, whatever the value. -/
def Obligations.PollLiteralIsTheCommonForm : Prop :=
  Kind.poll.code = 0xDD ∧
    sum8 [0xEB, 0x90, 0xDD, 0, 0, 0, 0] 2 7 = 0xDD ∧
    ∀ (v : Word) (s : State), exec (.encPoll v) s = .next { s with result := some (.ok (.frame (commandFrame .poll v))) }

/-- R122: the range check on bits 30:0 is the comparison of the value the pattern denotes, NaN and the infinities
rejected, for every pattern and kind. -/
def Obligations.RangeCheckComparesTheDenotedValue : Prop :=
  ∀ (k : Kind) (v : Word), k ≠ .poll → inRange k v = realInRange k v

/-- R129: the frame of an in-range value holds that value bit for bit and validates. -/
def Obligations.EncodedValueRoundTrips : Prop :=
  ∀ (k : Kind) (v : Word) (s : State), k ≠ .poll → inRange k v = true →
    ∃ f, exec (encInstr k v) s = .next { s with result := some (.ok (.frame f)) } ∧ be32 f 3 = v ∧
      exec (.validate f) s = .next { s with result := some (.ok (.bool true)) }

/-- R131: every frame that ENC returns has length 8, begins `EB 90` and has one of the four codes; fed back as one
chunk, it is an acknowledgment for the codes `D1` to `D3` and waits as the start of a telemetry frame for Poll. -/
def Obligations.EncodedFramesAndTheirEcho : Prop :=
  ∀ (k : Kind) (v : Word) (s t : State) (f : List Byte),
    exec (encInstr k v) s = .next t → t.result = some (.ok (.frame f)) →
      f.length = 8 ∧ f.take 2 = [0xEB, 0x90] ∧
      (byteAt f 2 = 0xD1 ∨ byteAt f 2 = 0xD2 ∨ byteAt f 2 = 0xD3 ∨ byteAt f 2 = 0xDD) ∧
      (8 ≤ s.params.chunkMax →
        exec (.push f) t =
          if byteAt f 2 = 0xDD then .next { t with buf := f, result := some (.ok (.events [])) }
          else .next { t with buf := [], result := some (.ok (.events [.ack f])) })

/-- R236, R127: a frame is offered to the host's queue only where the operation was an ENC whose value passed, and
then it is that ENC's frame. -/
def Obligations.OnlyEncOffersAFrame : Prop :=
  ∀ (i : Instr) (s t : State) (f : List Byte), exec i s = .next t → t.outgoingFrame = some f →
    ∃ (k : Kind) (v : Word), i = encInstr k v ∧ inRange k v = true ∧ f = commandFrame k v

/-! ### Checksum unit (40_checksum.md) -/

/-- R101: CKSUM returns the sum of offsets 2 to L-2 modulo 256 for a frame of 8 or 32 bytes, and refuses any other. -/
def Obligations.CksumSumsOffsetTwoToLast : Prop :=
  ∀ (f : List Byte) (s : State),
    (f.length = 8 ∨ f.length = 32 →
      exec (.cksum f) s = .next { s with result := some (.ok (.byte
        (BitVec.ofNat 8 (((List.range (f.length - 3)).map fun i => (byteAt f (i + 2)).toNat).sum)))) }) ∧
    (f.length ≠ 8 ∧ f.length ≠ 32 → exec (.cksum f) s = .refused (.badLength f.length))

/-- R102: VALIDATE returns whether the last byte is that sum, and refuses a frame of any other length. -/
def Obligations.ValidateComparesTheLastByte : Prop :=
  ∀ (f : List Byte) (s : State),
    (f.length = 8 ∨ f.length = 32 →
      exec (.validate f) s = .next { s with result := some (.ok (.bool (decide ((byteAt f (f.length - 1)).toNat =
        ((List.range (f.length - 3)).map fun i => (byteAt f (i + 2)).toNat).sum % 256)))) }) ∧
    (f.length ≠ 8 ∧ f.length ≠ 32 → exec (.validate f) s = .refused (.badLength f.length))

/-- R103: the sum does not depend on the order of its bytes, splits at any offset, follows a change of one summed
byte, and is at most 255. -/
def Obligations.SumLaws : Prop :=
  (∀ a b : List Byte, a.Perm b → sumBytes a = sumBytes b) ∧
    (∀ (s : List Byte) (a b c : Nat), a ≤ b → b ≤ c → sum8 s a c = sum8 s a b + sum8 s b c) ∧
    (∀ (s : List Byte) (a b i : Nat) (y : Byte), a ≤ i → i < b → i < s.length →
      sum8 (s.set i y) a b = sum8 s a b + (y - byteAt s i)) ∧
    ∀ (s : List Byte) (a b : Nat), (sum8 s a b).toNat ≤ 255

/-- R104: flipping one bit of offsets 2 to L-1 of a valid frame makes VALIDATE return false; changing offsets 0 or 1
alone leaves it true; and no event of the resynchronizer carries a frame that does not begin `EB 90`. -/
def Obligations.SingleBitFlipIsDetected : Prop :=
  (∀ (f : List Byte) (s : State) (i k : Nat), f.length = 8 ∨ f.length = 32 →
    exec (.validate f) s = .next { s with result := some (.ok (.bool true)) } → 2 ≤ i → i < f.length → k < 8 →
      exec (.validate (f.set i (byteAt f i ^^^ (1#8 <<< k)))) s =
        .next { s with result := some (.ok (.bool false)) }) ∧
  (∀ (f : List Byte) (s : State) (i : Nat) (y : Byte), f.length = 8 ∨ f.length = 32 →
    exec (.validate f) s = .next { s with result := some (.ok (.bool true)) } → i < 2 →
      exec (.validate (f.set i y)) s = .next { s with result := some (.ok (.bool true)) }) ∧
  ∀ (i : Instr) (s t : State), exec i s = .next t →
    (∀ f, .ack f ∈ t.emitted ∨ .ckerr f ∈ t.emitted → f.take 2 = [0xEB, 0x90]) ∧
    ∀ cur prev, .tlm cur prev ∈ t.emitted → cur.header = ⟨0xEB, 0x90, 0xDD⟩

/-- R105: adding to one summed byte what is taken from another leaves VALIDATE's answer as it was. -/
def Obligations.CompensatingChangesAreNotDetected : Prop :=
  ∀ (f : List Byte) (s : State) (i j : Nat) (d : Byte), f.length = 8 ∨ f.length = 32 →
    2 ≤ i → i < f.length - 1 → 2 ≤ j → j < f.length - 1 → i ≠ j →
      exec (.validate ((f.set i (byteAt f i + d)).set j (byteAt f j - d))) s = exec (.validate f) s

/-! ### Telemetry decoder (42_telemetry_decoder.md) -/

/-- R8: fields are read and written most significant byte first. -/
def Obligations.FieldsAreBigEndian : Prop :=
  (∀ (s : List Byte) (o : Nat), (be16 s o).toNat = (byteAt s o).toNat * 256 + (byteAt s (o + 1)).toNat) ∧
    (∀ (s : List Byte) (o : Nat), (be32 s o).toNat =
      (byteAt s o).toNat * 2 ^ 24 + (byteAt s (o + 1)).toNat * 2 ^ 16 + (byteAt s (o + 2)).toNat * 2 ^ 8 +
        (byteAt s (o + 3)).toNat) ∧
    ∀ v : Word, bytesBe32 v =
      [BitVec.ofNat 8 (v.toNat / 2 ^ 24), BitVec.ofNat 8 (v.toNat / 2 ^ 16), BitVec.ofNat 8 (v.toNat / 2 ^ 8),
        BitVec.ofNat 8 v.toNat]

/-- R150: DECODE_TLM of 32 bytes answers the record with each field at its offset where the last byte is the sum of
offsets 2 to 30, `ChecksumError` where it is not, and refuses any other length. -/
def Obligations.DecodeTlmBuildsTheRecord : Prop :=
  ∀ (f : List Byte) (s : State),
    (f.length = 32 → byteAt f 31 = sum8 f 2 31 →
      exec (.decodeTlm f) s = .next { s with result := some (.ok (.record {
        header := ⟨byteAt f 0, byteAt f 1, byteAt f 2⟩
        lastCommand := byteAt f 3
        controlTarget := be32 f 4
        speedFeedback := be32 f 8
        currentFeedback := be32 f 12
        accelerationFeedback := be32 f 16
        commandResponseCount := byteAt f 20
        telemetryCommandCount := byteAt f 21
        errorCommandCount := byteAt f 22
        motherboardCurrent := be16 f 23
        temperature := byteAt f 25
        singleMotorStatus := byteAt f 26
        reserved := ⟨byteAt f 27, byteAt f 28, byteAt f 29, byteAt f 30⟩
        checksum := byteAt f 31 })) }) ∧
    (f.length = 32 → byteAt f 31 ≠ sum8 f 2 31 →
      exec (.decodeTlm f) s = .next { s with result := some (.err .checksumError) }) ∧
    (f.length ≠ 32 → exec (.decodeTlm f) s = .refused (.badLength f.length))

/-- R160: the frame can be rebuilt from the record, and two frames that decode give equal records exactly where they
are equal. -/
def Obligations.DecodingLosesNothing : Prop :=
  ∀ (f g : List Byte) (s t u : State) (a b : TlmRecord),
    exec (.decodeTlm f) s = .next t → t.result = some (.ok (.record a)) →
    exec (.decodeTlm g) s = .next u → u.result = some (.ok (.record b)) →
      a.frame = f ∧ (a = b ↔ f = g)

/-- R155, R156: the temperature is offset 25 read as two's complement, the motherboard current offsets 23 and 24
read unsigned. -/
def Obligations.TemperatureIsSignedAndCurrentUnsigned : Prop :=
  ∀ (f : List Byte) (s t : State) (r : TlmRecord), exec (.decodeTlm f) s = .next t →
    t.result = some (.ok (.record r)) →
      r.celsius = (if (byteAt f 25).toNat < 128 then ((byteAt f 25).toNat : Int) else (byteAt f 25).toNat - 256) ∧
      r.motherboardReading = (byteAt f 23).toNat * 256 + (byteAt f 24).toNat

/-- R153: whether a frame decodes, and to which fields, does not depend on offsets 0 and 1; the header shows the
bytes the frame had. -/
def Obligations.DecodeTlmDoesNotCheckTheMarker : Prop :=
  ∀ (f : List Byte) (s t : State) (x y : Byte) (r : TlmRecord), exec (.decodeTlm f) s = .next t →
    t.result = some (.ok (.record r)) →
      exec (.decodeTlm ((f.set 0 x).set 1 y)) s =
        .next { s with result := some (.ok (.record { r with header := ⟨x, y, byteAt f 2⟩ })) }

/-! ### Resynchronizer (43_resynchronizer.md) -/

/-- R180 to R182, R204: a PUSH of 1 to `CHUNK_MAX` bytes completes with `Ok`; the buffer is emptied where the chunk
begins with `EB`, the chunk is appended, and the scan gives the events, the buffer and the previous record. -/
def Obligations.PushClearsAppendsAndScans : Prop :=
  ∀ (c : List Byte) (s : State), 1 ≤ c.length → c.length ≤ s.params.chunkMax →
    exec (.push c) s =
      (let r := scan ((if byteAt c 0 = 0xEB then [] else s.buf) ++ c) s.prev
       .next { s with buf := r.buf, prev := r.prev, result := some (.ok (.events r.events)) })

/-- R183: the marker found is the least offset at which `EB 90` stands; none is found only where it stands nowhere,
and then the scan ends with no event and keeps a trailing `EB` alone. -/
def Obligations.MarkerSearchTakesTheLeastOffset : Prop :=
  ∀ b : List Byte,
    (∀ p, findMarker b = some p →
      p + 1 < b.length ∧ byteAt b p = 0xEB ∧ byteAt b (p + 1) = 0x90 ∧
        ∀ q, q < p → ¬(byteAt b q = 0xEB ∧ byteAt b (q + 1) = 0x90)) ∧
    (findMarker b = none →
      (∀ q, q + 1 < b.length → ¬(byteAt b q = 0xEB ∧ byteAt b (q + 1) = 0x90)) ∧
        ∀ prev, scan b prev =
          ⟨[], if b ≠ [] ∧ byteAt b (b.length - 1) = 0xEB then [0xEB] else [], prev⟩)

/-- R184 to R191: from a marker on, the scan's two waits and the three ways a candidate ends, each going back to
step 3 on the shorter buffer. -/
def Obligations.ScanFollowsTheSteps : Prop :=
  ∀ (buf : List Byte) (prev : Option TlmRecord) (p : Nat), findMarker buf = some p →
      let b := buf.drop p
      let len := if byteAt b 2 = 0xDD then 32 else 8
      let f := b.take len
      let rest := b.drop len
      (b.length < 3 → scan buf prev = ⟨[], b, prev⟩) ∧
      (3 ≤ b.length → b.length < len → scan buf prev = ⟨[], b, prev⟩) ∧
      (3 ≤ b.length → len ≤ b.length → byteAt f (len - 1) ≠ sum8 f 2 (len - 1) →
        scan buf prev =
          ⟨.ckerr f :: (scan rest prev).events, (scan rest prev).buf, (scan rest prev).prev⟩) ∧
      (3 ≤ b.length → len ≤ b.length → byteAt f (len - 1) = sum8 f 2 (len - 1) → len = 32 →
        scan buf prev =
          (let r := telemetryRecord f
           ⟨.tlm r (prev.getD r) :: (scan rest (some r)).events, (scan rest (some r)).buf,
             (scan rest (some r)).prev⟩)) ∧
      (3 ≤ b.length → len ≤ b.length → byteAt f (len - 1) = sum8 f 2 (len - 1) → len = 8 →
        scan buf prev =
          ⟨.ack f :: (scan rest prev).events, (scan rest prev).buf, (scan rest prev).prev⟩)

/-- R193: every scan ends with the buffer in one of the four shapes. -/
def Obligations.ScanEndsInALegalShape : Prop :=
  ∀ (buf : List Byte) (prev : Option TlmRecord), BufShape (scan buf prev).buf

/-- R29: from a buffer of a legal shape, no operation leaves more than 31 bytes in it, and during a PUSH it holds
at most `BUF_CAP`. -/
def Obligations.BufferNeverOverflows : Prop :=
  ∀ (i : Instr) (s t : State), BufShape s.buf → exec i s = .next t →
    t.buf.length ≤ 31 ∧
      ∀ c, i = .push c → s.buf.length + c.length ≤ 31 + c.length ∧ (s.buf ++ c).length ≤ s.params.bufCap

/-- R192: a PUSH emits at most `(31 + n) / 8` events for a chunk of `n` bytes. -/
def Obligations.PushEmitsBoundedEvents : Prop :=
  ∀ (c : List Byte) (s t : State), BufShape s.buf → exec (.push c) s = .next t →
    t.emitted.length ≤ (31 + c.length) / 8

/-- R205: with the byte-serial port, PUSH_BYTE completes: the buffer is cleared only for an `EB` that begins a chunk,
the byte is appended and the buffer scanned; from a buffer of a legal shape it emits at most one event and leaves at
most 31 bytes. -/
def Obligations.PushByteAppendsAndScans : Prop :=
  ∀ (b : Byte) (sop : Bool) (s : State), s.params.bytePort = true →
    let r := scan ((if sop = true ∧ b = 0xEB then [] else s.buf) ++ [b]) s.prev
    exec (.pushByte b sop) s =
        .next { s with buf := r.buf, prev := r.prev, result := some (.ok (.events r.events)) } ∧
      (BufShape s.buf → r.events.length ≤ 1 ∧ r.buf.length ≤ 31)

/-- The model's choice (log 6): a block without the byte-serial port refuses PUSH_BYTE. -/
def Obligations.PushByteNeedsThePort : Prop :=
  ∀ (b : Byte) (sop : Bool) (s : State), s.params.bytePort = false →
    exec (.pushByte b sop) s = .refused .bytePortAbsent

/-- R25: RESET empties the previous-record register; after any other operation it holds the record of the last TLM
event the operation emitted, and is unchanged where it emitted none. -/
def Obligations.OnlyTelemetryAndResetWritePrev : Prop :=
  ∀ (i : Instr) (s t : State), exec i s = .next t →
    (i = .reset → t.prev = none) ∧
      (i ≠ .reset → t.prev = (match lastRecord t.emitted with | some r => some r | none => s.prev))

/-- R201: a chunk that begins with `EB` has the same events and leaves the same state whatever the buffer held. -/
def Obligations.MarkerLedChunkDiscardsThePartialFrame : Prop :=
  ∀ (c : List Byte) (s : State) (held : List Byte), byteAt c 0 = 0xEB →
    exec (.push c) { s with buf := held } = exec (.push c) { s with buf := [] }

/-- R206: PUSH of a chunk and PUSH_BYTE of its bytes, the start-of-chunk bit on the first, give the same events and
leave the same buffer and previous record, from every state. -/
def Obligations.ByteSerialDeliveryEqualsChunkDelivery : Prop :=
  ∀ (c : List Byte) (s : State), s.params.bytePort = true → 1 ≤ c.length → c.length ≤ s.params.chunkMax →
    ∃ r, resyncRun [.push c] s = some r ∧ resyncRun (byteSerial c) s = some r

/-- R202: a stream cut into chunks gives the same events and leaves the same state as the stream in one chunk, if
every chunk after the first that begins with `EB` meets a buffer that is empty or a lone `EB`; without that condition
the events may differ. -/
def Obligations.ChunkBoundariesDoNotMatter : Prop :=
  (∀ (chunks : List (List Byte)) (s : State), chunks ≠ [] → (∀ c ∈ chunks, c ≠ []) →
    chunks.flatten.length ≤ s.params.chunkMax →
    (∀ before c after r, chunks = before ++ c :: after → before ≠ [] → c.head? = some 0xEB →
      resyncRun (before.map .push) s = some r → r.buf = [] ∨ r.buf = [0xEB]) →
      ∃ r, resyncRun (chunks.map .push) s = some r ∧ resyncRun [.push chunks.flatten] s = some r) ∧
  ∃ (a b : List Byte) (s : State) (r u : ScanResult),
    resyncRun [.push a, .push b] s = some r ∧ resyncRun [.push (a ++ b)] s = some u ∧ r.events ≠ u.events

/-- R203: from the reset state, bytes that hold no marker followed by well-formed frames give exactly one TLM or ACK
event per frame, in order, and no CKERR. -/
def Obligations.RecoveryAfterGarbage : Prop :=
  ∀ (g : List Byte) (frames : List (List Byte)) (s : State), s.buf = [] → s.prev = none → HoldsNoMarker g →
    (∀ f ∈ frames, WellFormedFrame f) → 1 ≤ (g ++ frames.flatten).length →
    (g ++ frames.flatten).length ≤ s.params.chunkMax →
      ∃ t, exec (.push (g ++ frames.flatten)) s = .next t ∧ t.emitted = eventPerFrame frames none ∧
        t.emitted.length = frames.length ∧ ∀ f, .ckerr f ∉ t.emitted

/-- R207: for every sequence of operations, a resynchronizer that keeps every byte until a marker is found emits the
same events as the FCR. -/
def Obligations.TrimChangesNoEvent : Prop :=
  ∀ (is : List Instr) (s : State) (r : ScanResult), resyncRun is s = some r →
    r.events = literalEvents is s.buf s.prev

/-- R260, R45: RESET empties the buffer and the previous record, returns `Ok` with no event, changes nothing else
and is idempotent. -/
def Obligations.ResetClearsTheResynchronizer : Prop :=
  ∀ s : State,
    exec .reset s = .next { s with buf := [], prev := none, result := some (.ok .unit) } ∧
      ∀ t, exec .reset s = .next t → t.emitted = [] ∧ exec .reset t = .next t

/-- R261: at power-on the FCR is as if RESET had been performed. -/
def Obligations.PowerOnIsTheResetState : Prop :=
  State.reset.buf = [] ∧ State.reset.prev = none ∧
    exec .reset State.reset = .next { State.reset with result := some (.ok .unit) }

/-! ### Wire frames (30_encoding.md, 70_reset_and_hazards.md) -/

/-- R267, R131 with the model's choice that a wire frame arrives as one chunk of its own (log 3): an echoed Current,
Speed or Torque frame clears the buffer and yields an ACK where its checksum matches, a CKERR where it does not; the
echoed Poll frame stays in the buffer and waits. -/
def Obligations.EchoedCommandFrames : Prop :=
  ∀ (p : Word) (x : Byte) (s : State), 8 ≤ s.params.chunkMax →
    (∀ (i : Instr) (code : Byte),
      (i = .cmdCurrent p x ∧ code = 0xD1) ∨ (i = .cmdSpeed p x ∧ code = 0xD2) ∨ (i = .cmdTorque p x ∧ code = 0xD3) →
        let f : List Byte := [0xEB, 0x90, code, p.extractLsb' 24 8, p.extractLsb' 16 8, p.extractLsb' 8 8,
          p.extractLsb' 0 8, x]
        exec i s = .next { s with
          buf := []
          result := some (.ok (.events [
            if x = code + p.extractLsb' 24 8 + p.extractLsb' 16 8 + p.extractLsb' 8 8 + p.extractLsb' 0 8 then .ack f
            else .ckerr f])) }) ∧
    exec .cmdPoll s = .next { s with
      buf := [0xEB, 0x90, 0xDD, 0x00, 0x00, 0x00, 0x00, 0xDD], result := some (.ok (.events [])) }

/-- R189, R190, R196 with log 3: a telemetry frame that arrives as one chunk of its own clears the buffer; with a
matching checksum it emits TLM, paired with the previous record or with itself where there is none, and becomes the
previous record; else it emits CKERR and the previous record stays. -/
def Obligations.TelemetryFrameArrives : Prop :=
  ∀ (x : TlmFields) (s : State), 32 ≤ s.params.chunkMax →
    (x.checksum = sum8 x.frame 2 31 →
      exec (.rspTlm x) s =
        (let r : TlmRecord := { x with header := ⟨0xEB, 0x90, 0xDD⟩ }
         .next { s with buf := [], prev := some r, result := some (.ok (.events [.tlm r (s.prev.getD r)])) })) ∧
    (x.checksum ≠ sum8 x.frame 2 31 →
      exec (.rspTlm x) s = .next { s with buf := [], result := some (.ok (.events [.ckerr x.frame])) })

/-- R191, R189 with log 3: an acknowledgment that arrives as one chunk of its own clears the buffer and emits ACK or
CKERR, the previous record unchanged. With `DD` at offset 2 the eight bytes are no acknowledgment (R66) but the start
of a telemetry frame (R67): they replace the buffer and wait, with no event (R187). -/
def Obligations.AcknowledgmentArrives : Prop :=
  ∀ (d : Byte) (p : Word) (x : Byte) (s : State),
    (d ≠ 0xDD → 8 ≤ s.params.chunkMax →
      (let f : List Byte := [0xEB, 0x90, d, p.extractLsb' 24 8, p.extractLsb' 16 8, p.extractLsb' 8 8,
        p.extractLsb' 0 8, x]
       exec (.rspAck d p x) s = .next { s with
        buf := []
        result := some (.ok (.events [
          if x = d + p.extractLsb' 24 8 + p.extractLsb' 16 8 + p.extractLsb' 8 8 + p.extractLsb' 0 8 then .ack f
          else .ckerr f])) })) ∧
    (d = 0xDD → 8 ≤ s.params.chunkMax →
      exec (.rspAck d p x) s = .next { s with
        buf := [0xEB, 0x90, 0xDD, p.extractLsb' 24 8, p.extractLsb' 16 8, p.extractLsb' 8 8, p.extractLsb' 0 8, x]
        result := some (.ok (.events [])) })

/-! ### Errors, refusals, state (60_exceptions.md, 10_state.md) -/

/-- R234: no operation faults and none returns the reserved code 3. -/
def Obligations.ReservedCodeIsNeverReturned : Prop :=
  ∀ (i : Instr) (s : State), (∀ x, exec i s ≠ .fault x) ∧
    ∀ t r, exec i s = .next t → t.result = some r → r.code = 0 ∨ r.code = 1 ∨ r.code = 2

/-- R72, in the model's own list of issues (log 1) and with the tag before the operand's bytes (log 2): each of the
246 tags that are not in the table of R70 is refused, whatever its operand. -/
def Obligations.IllegalTagsAreRefused : Prop :=
  ∀ (tag : Byte) (operand : List Byte) (s : State) (rest : List Issue),
    tag ∉ [0x10, 0x11, 0x12, 0x13, 0x20, 0x21, 0x30, 0x40, 0x41, 0xF0] →
    s.input = ⟨.operation, tag :: operand⟩ :: rest → step s = .refused (.illegalOp tag)

/-- R73, R235 with logs 3 and 6: an instruction completes exactly where its operand is legal for the block, and is
refused, never a fault, where it is not. Two refusals are the model's choices and no rule's: a wire frame longer than
a chunk may be (log 3) and PUSH_BYTE without the port (log 6). -/
def Obligations.RefusedExactlyWhereIllFormed : Prop :=
  ∀ (i : Instr) (s : State),
    (i.wellFormed s.params = true → ∃ t, exec i s = .next t) ∧
    (i.wellFormed s.params = false → ∃ r, exec i s = .refused r)

/-- R235: a frame of a length that is not legal, an empty chunk and a chunk of more than `CHUNK_MAX` bytes are refused
as `BadLength`. -/
def Obligations.BadLengthsAreRefused : Prop :=
  ∀ (x : List Byte) (s : State),
    (x.length ≠ 8 → x.length ≠ 32 →
      exec (.cksum x) s = .refused (.badLength x.length) ∧ exec (.validate x) s = .refused (.badLength x.length)) ∧
    (x.length ≠ 32 → exec (.decodeTlm x) s = .refused (.badLength x.length)) ∧
    (x.length = 0 ∨ s.params.chunkMax < x.length → exec (.push x) s = .refused (.badLength x.length))

/-- R2, R22, R128: an operation of the encoder, the checksum unit or the decoder changes nothing but the result, and
its result is the same from every state. -/
def Obligations.StatelessOperationsReadAndWriteNoState : Prop :=
  ∀ (i : Instr) (s u t : State), Instr.stateless i = true → exec i s = .next t →
    t = { s with result := t.result } ∧ exec i u = .next { u with result := t.result }

/-- R31: no step writes the block's parameters. -/
def Obligations.StepNeverWritesParameters : Prop :=
  ∀ s t : State, step s = .next t → t.params = s.params

/-- R33, with a fleet as a list of states (log 16): a step of one FCR leaves every other as it was, and what
it does to its own does not depend on them. -/
def Obligations.FleetMembersAreIndependent : Prop :=
  ∀ (fleet : List State) (k : Nat) (s t : State), fleet[k]? = some s → step s = .next t →
    ∃ after, Fleet.stepAt fleet k = some after ∧ after[k]? = some t ∧ ∀ j, j ≠ k → after[j]? = fleet[j]?

/-- R264, with the issue in the model's own list (logs 1 and 7): the host's start leaves the buffer and the previous
record, and issues RESET exactly where `RESET_ON_START` says so. -/
def Obligations.HostStartActsOnlyByReset : Prop :=
  ∀ s : State, s.hostStart.buf = s.buf ∧ s.hostStart.prev = s.prev ∧
    (s.params.resetOnStart = false → s.hostStart = s) ∧
    (s.params.resetOnStart = true → s.input = [] →
      step s.hostStart = .next { s with buf := [], prev := none, result := some (.ok .unit) })

/-! ### Steps and the invariant -/

/-- R49 with the model's own input (log 1): where the oldest issue decodes, the step is that instruction on the state
without the issue; where it does not, the step is refused. R235 names the refusal of an unknown tag; that an issue
with no tag or with bytes that fit no operand is refused is the model's choice of log 2. Bytes on a link always
decode (`LinkBytesAlwaysArrive`). -/
def Obligations.StepRunsTheDecodedInstruction : Prop :=
  ∀ (s : State) (issue : Issue) (rest : List Issue), s.input = issue :: rest →
    (∀ i, decode issue = .ok i → step s = exec i { s with input := rest }) ∧
    ∀ e, decode issue = .error e → ∃ r, step s = .refused r

/-- R68, R131, R204 with logs 1, 3 and 4: whatever bytes stand at a link port, a step does with them what PUSH of
those bytes does, be they a frame of the table, part of one, or none; so the six wire-frame rows and PUSH agree. -/
def Obligations.LinkBytesAlwaysArrive : Prop :=
  ∀ (s : State) (w : Issue) (rest : List Issue), s.input = w :: rest → w.port ≠ .operation →
    step s = exec (.push w.bytes) { s with input := rest }

/-- The model's choice of log 1: with nothing issued, a step answers a next state, the whole of it unchanged. R245
says of it only that a host that stops issuing operations leaves `buf` and `prev` as they are. -/
def Obligations.IdleStepChangesNothing : Prop :=
  ∀ s : State, s.input = [] → step s = .next s

/-- R49 with the model's own input (log 1): operations issued together are performed in the order of their issue. -/
def Obligations.IssuedOperationsRunInOrder : Prop :=
  ∀ (i : Instr) (is : List Instr) (s : State), s.input = [] → i.wellFormed s.params = true →
    step (s.issue (i :: is)) = exec i (s.issue is)

/-- R21, R24, R161, R195 to R198, R131: every step keeps the invariant. -/
def Obligations.StepKeepsTheInvariant : Prop :=
  ∀ s t : State, Inv s → step s = .next t → Inv t

/-- R32: the invariant holds at reset. -/
def Obligations.ResetMeetsTheInvariant : Prop := Inv State.reset

/-! ### Encodings (30_encoding.md) -/

/-- Logs 2 and 4: decoding the words of an instruction gives it back, for every instruction but an acknowledgment
with `DD` at offset 2, which is none (R66): its bytes decode to PUSH of them. -/
def Obligations.DecodeOfEncodeIsTheInstruction : Prop :=
  (∀ i : Instr, (∀ d b x, i = .rspAck d b x → d ≠ 0xDD) → decode (encode i) = .ok i) ∧
    ∀ (b : Word) (x : Byte),
      decode (encode (.rspAck 0xDD b x)) = .ok (.push [0xEB, 0x90, 0xDD, b.extractLsb' 24 8, b.extractLsb' 16 8,
        b.extractLsb' 8 8, b.extractLsb' 0 8, x])

/-- Logs 2 and 4: words that decode are the words of the instruction they decode to, or bytes on a link that decode
to PUSH of them; such bytes are the words of no instruction but an acknowledgment with `DD` at offset 2, which is none
(R66). -/
def Obligations.EncodeOfDecodeIsTheWords : Prop :=
  ∀ (w : Issue) (i : Instr), decode w = .ok i →
    encode i = w ∨
      (w.port ≠ .operation ∧ i = .push w.bytes ∧ ∀ j, encode j = w → ∃ b x, j = .rspAck 0xDD b x)

/-- Words written out by hand decode to their instructions. The tags (R70) and the bytes of the frames (R60, R66,
R69) are the spec's; the operand's bytes after the tag and the start bit in a byte of its own are the model's layout
of log 2, and the port of each issue is its choice of log 4. -/
def Obligations.SpecWordsDecode : Prop :=
  decode ⟨.operation, [0x12, 0x42, 0xC8, 0x00, 0x00]⟩ = .ok (.encSpeed 0x42C80000) ∧
    decode ⟨.operation, [0x21, 0xEB, 0x90, 0xD3, 0x41, 0xF0, 0x00, 0x00, 0x04]⟩ =
      .ok (.validate [0xEB, 0x90, 0xD3, 0x41, 0xF0, 0x00, 0x00, 0x04]) ∧
    decode ⟨.operation, [0x41, 0xEB, 0x01]⟩ = .ok (.pushByte 0xEB true) ∧
    decode ⟨.operation, [0xF0]⟩ = .ok .reset ∧
    decode ⟨.commandLink, [0xEB, 0x90, 0xD1, 0x44, 0xBB, 0x80, 0x00, 0x50]⟩ = .ok (.cmdCurrent 0x44BB8000 0x50) ∧
    decode ⟨.commandLink, [0xEB, 0x90, 0xDD, 0x00, 0x00, 0x00, 0x00, 0xDD]⟩ = .ok .cmdPoll ∧
    decode ⟨.responseLink, [0xEB, 0x90, 0xD2, 0x42, 0xC8, 0x00, 0x00, 0xDC]⟩ = .ok (.rspAck 0xD2 0x42C80000 0xDC)

/-- R76: the frame read as a number has the byte at offset `i` at bits `8(L-i)-1` to `8(L-i-1)`. -/
def Obligations.PackedFrameHasOffsetZeroOnTop : Prop :=
  ∀ (f : List Byte) (i : Nat), i < f.length →
    packFrame f / 2 ^ (8 * (f.length - i - 1)) % 256 = (byteAt f i).toNat

/-! ### Assembler (30_encoding.md R74, R75) -/

/-- R74 with log 14: the decimal conversion of the number that a finite pattern denotes gives that pattern back. -/
def Obligations.DecimalConversionIsExactOnBinary32 : Prop :=
  ∀ (v : Word) (units : Int), binary32Value v = .finite units →
    nearestBinary32 (v.getLsbD 31) units.natAbs (2 ^ 149) = v
end

