-- ==== Sys2Proof/Laws/State.lean ====
section
/-! SUPPORT. The small lemmas of State: what each update leaves in each field. -/

namespace Sys2Proof.Machine

@[simp] theorem State.reset_params : State.reset.params = Config.params := rfl
@[simp] theorem State.reset_buf : State.reset.buf = [] := rfl
@[simp] theorem State.reset_prev : State.reset.prev = none := rfl
@[simp] theorem State.reset_input : State.reset.input = [] := rfl
@[simp] theorem State.reset_result : State.reset.result = none := rfl

/-- A block as its builder makes it takes chunks of at least one byte (R4). -/
theorem Config.one_le_chunkMax : 1 ≤ Config.params.chunkMax := Nat.le_add_left 1 _

/-- A block as its builder makes it stands beside a ring store of at least one entry (R4). -/
theorem Config.one_le_ringCap : 1 ≤ Config.params.ringCap := Nat.le_add_left 1 _

@[simp] theorem State.present_input (s : State) (w : Issue) : (s.present w).input = w :: s.input := rfl
@[simp] theorem State.present_buf (s : State) (w : Issue) : (s.present w).buf = s.buf := rfl
@[simp] theorem State.present_prev (s : State) (w : Issue) : (s.present w).prev = s.prev := rfl
@[simp] theorem State.present_result (s : State) (w : Issue) : (s.present w).result = s.result := rfl

@[simp] theorem State.issue_input (s : State) (is : List Instr) :
    (s.issue is).input = s.input ++ is.map encode := rfl
@[simp] theorem State.issue_params (s : State) (is : List Instr) : (s.issue is).params = s.params := rfl
@[simp] theorem State.issue_buf (s : State) (is : List Instr) : (s.issue is).buf = s.buf := rfl
@[simp] theorem State.issue_prev (s : State) (is : List Instr) : (s.issue is).prev = s.prev := rfl
@[simp] theorem State.issue_result (s : State) (is : List Instr) : (s.issue is).result = s.result := rfl

/-! The events a state holds, whatever its other fields. -/

@[simp] theorem State.emitted_events (p : Params) (b : List Byte) (q : Option TlmRecord) (i : List Issue) (es : List Event) :
    (State.mk p b q i (some (.ok (.events es)))).emitted = es := rfl
@[simp] theorem State.emitted_unit (p : Params) (b : List Byte) (q : Option TlmRecord) (i : List Issue) :
    (State.mk p b q i (some (.ok .unit))).emitted = [] := rfl
@[simp] theorem State.emitted_frame (p : Params) (b : List Byte) (q : Option TlmRecord) (i : List Issue) (f : List Byte) :
    (State.mk p b q i (some (.ok (.frame f)))).emitted = [] := rfl
@[simp] theorem State.emitted_byte (p : Params) (b : List Byte) (q : Option TlmRecord) (i : List Issue) (x : Byte) :
    (State.mk p b q i (some (.ok (.byte x)))).emitted = [] := rfl
@[simp] theorem State.emitted_bool (p : Params) (b : List Byte) (q : Option TlmRecord) (i : List Issue) (x : Bool) :
    (State.mk p b q i (some (.ok (.bool x)))).emitted = [] := rfl
@[simp] theorem State.emitted_record (p : Params) (b : List Byte) (q : Option TlmRecord) (i : List Issue) (r : TlmRecord) :
    (State.mk p b q i (some (.ok (.record r)))).emitted = [] := rfl
@[simp] theorem State.emitted_err (p : Params) (b : List Byte) (q : Option TlmRecord) (i : List Issue) (e : ErrorKind) :
    (State.mk p b q i (some (.err e))).emitted = [] := rfl

/-- With nothing issued there is no issue to take. -/
theorem State.takeIssue_nil (s : State) (h : s.input = []) : s.takeIssue = none := by
  simp [State.takeIssue, h]

/-- The oldest issue is taken, and the state keeps the others. -/
theorem State.takeIssue_cons (s : State) (w : Issue) (rest : List Issue) (h : s.input = w :: rest) :
    s.takeIssue = some (w, { s with input := rest }) := by
  simp [State.takeIssue, h]

end Sys2Proof.Machine
end

