-- ==== Sys2Proof/Laws/Ops.lean ====
section
/-! SUPPORT. For each shared operation, what it can do, said once. -/

namespace Sys2Proof

/-! ### Frames and fields -/

@[simp] theorem bytesBe32_length (v : Word) : (bytesBe32 v).length = 4 := rfl

@[simp] theorem bytesBe16_length (v : Half) : (bytesBe16 v).length = 2 := rfl

@[simp] theorem frame8_length (code : Byte) (p : Word) (x : Byte) : (frame8 code p x).length = 8 := rfl

@[simp] theorem TlmFields.bytes_length (t : TlmFields) : t.bytes.length = 29 := rfl

@[simp] theorem TlmFields.frame_length (t : TlmFields) : t.frame.length = 32 := rfl

@[simp] theorem TlmRecord.frame_length (r : TlmRecord) : r.frame.length = 32 := rfl

@[simp] theorem pollFrame_length : pollFrame.length = 8 := rfl

/-- A frame is 8 or 32 bytes long (R67). -/
theorem frameLength_cases (d : Byte) : frameLength d = 8 ∨ frameLength d = 32 := by
  unfold frameLength lenTlm lenAck
  split
  · exact .inr rfl
  · exact .inl rfl

theorem frameLength_pos (d : Byte) : 0 < frameLength d := by
  rcases frameLength_cases d with h | h <;> omega

@[simp] theorem commandFrame_length (k : Kind) (v : Word) : (commandFrame k v).length = 8 := rfl

/-- Reading a big-endian field just written gives it back. -/
theorem be32_bytesBe32 (v : Word) : be32 (bytesBe32 v) 0 = v := by
  apply BitVec.eq_of_getLsbD_eq
  intro i hi
  simp only [be32, bytesBe32, byteAt, List.getD_cons_zero, List.getD_cons_succ]
  erw [BitVec.getLsbD_append, BitVec.getLsbD_append, BitVec.getLsbD_append]
  simp only [BitVec.getLsbD_extractLsb']
  split
  · simp [*]
  · split
    · rw [show 8 + (i - 8) = i by omega]; simp; omega
    · split
      · rw [show 16 + (i - 8 - 8) = i by omega]; simp; omega
      · rw [show 24 + (i - 8 - 8 - 8) = i by omega]; simp; omega

/-- Four bytes read as a big-endian field are written back as they were. -/
theorem bytesBe32_append (a b c d : Byte) : bytesBe32 (a ++ b ++ c ++ d : BitVec 32) = [a, b, c, d] := by
  have ha := a.isLt
  have hb := b.isLt
  have hc := c.isLt
  have hd := d.isLt
  have h : (a ++ b ++ c ++ d : BitVec 32).toNat =
      ((a.toNat * 256 + b.toNat) * 256 + c.toNat) * 256 + d.toNat := by
    rw [BitVec.toNat_append (a ++ b ++ c) d, BitVec.toNat_append (a ++ b) c, BitVec.toNat_append a b,
      ← Nat.shiftLeft_add_eq_or_of_lt hd, ← Nat.shiftLeft_add_eq_or_of_lt hc, ← Nat.shiftLeft_add_eq_or_of_lt hb]
    simp only [Nat.shiftLeft_eq]
  generalize (a ++ b ++ c ++ d : BitVec 32) = v at *
  simp only [bytesBe32, List.cons.injEq, and_true]
  refine ⟨?_, ?_, ?_, ?_⟩ <;> apply BitVec.eq_of_toNat_eq <;> simp [Nat.shiftRight_eq_div_pow] <;> omega

/-- Two bytes read as a big-endian field are written back as they were. -/
theorem bytesBe16_append (a b : Byte) : bytesBe16 (a ++ b : BitVec 16) = [a, b] := by
  have ha := a.isLt
  have hb := b.isLt
  have h : (a ++ b : BitVec 16).toNat = a.toNat * 256 + b.toNat := by
    rw [BitVec.toNat_append a b, ← Nat.shiftLeft_add_eq_or_of_lt hb]
    simp only [Nat.shiftLeft_eq]
  generalize (a ++ b : BitVec 16) = v at *
  simp only [bytesBe16, List.cons.injEq, and_true]
  refine ⟨?_, ?_⟩ <;> apply BitVec.eq_of_toNat_eq <;> simp [Nat.shiftRight_eq_div_pow] <;> omega

/-- The sum of two sequences is the sum of their sums. -/
theorem sumBytes_append (a b : List Byte) : sumBytes (a ++ b) = sumBytes a + sumBytes b := by
  induction a with
  | nil => simp [sumBytes]
  | cons x xs ih => simp [sumBytes, ih, BitVec.add_assoc]

/-- The sum of bytes is the sum of their values modulo 256 (R100). -/
theorem sumBytes_eq_ofNat (a : List Byte) : sumBytes a = BitVec.ofNat 8 (a.map (·.toNat)).sum := by
  induction a with
  | nil => rfl
  | cons x xs ih =>
    apply BitVec.eq_of_toNat_eq
    simp [sumBytes, ih]

end Sys2Proof

namespace Sys2Proof.Machine

/-! ### Completing -/

/-- An `Ok` is returned and nothing else changes. -/
@[simp] theorem State.complete_ok (s : State) (v : Value) :
    s.complete (.ok v) = .next { s with result := some (.ok v) } := rfl

@[simp] theorem State.complete_outOfRange (s : State) :
    s.complete (.err .outOfRange) = .next { s with result := some (.err .outOfRange) } := rfl

@[simp] theorem State.complete_checksumError (s : State) :
    s.complete (.err .checksumError) = .next { s with result := some (.err .checksumError) } := rfl

/-- All that completing can do: the next state has the result and is otherwise unchanged. -/
theorem State.complete_next (s t : State) (r : Result) (h : s.complete r = .next t) :
    t = { s with result := some r } ∧ r ≠ .err .responseLengthMismatch := by
  rcases r with v | e
  · simp at h; simp [h]
  · cases e with
    | outOfRange => simp at h; simp [h]
    | checksumError => simp at h; simp [h]
    | responseLengthMismatch => simp [State.complete, Result.code, ErrorKind.code, reservedCode] at h

/-- Completing never refuses. -/
theorem State.complete_not_refused (s : State) (r : Result) (x : Refusal) : s.complete r ≠ .refused x := by
  unfold State.complete
  split <;> simp

/-! ### Codec cores -/

/-- ENC answers a frame of an in-range value, or `OutOfRange`. -/
theorem encodeCommand_cases (k : Kind) (v : Word) :
    (inRange k v = true ∧ encodeCommand k v = .ok (.frame (commandFrame k v))) ∨
      (inRange k v = false ∧ encodeCommand k v = .err .outOfRange) := by
  cases h : inRange k v <;> simp [encodeCommand, h]

/-- The decoder answers the record of a valid frame, or `ChecksumError`. -/
theorem decodeTelemetry_cases (f : List Byte) :
    (frameValid f = true ∧ decodeTelemetry f = .ok (.record (telemetryRecord f))) ∨
      (frameValid f = false ∧ decodeTelemetry f = .err .checksumError) := by
  cases h : frameValid f <;> simp [decodeTelemetry, h]

/-! ### The scan -/

/-- A marker that is found has both its bytes in the buffer. -/
theorem findMarker_lt : ∀ (b : List Byte) (p : Nat), findMarker b = some p → p + 1 < b.length
  | [], _, h => by simp [findMarker] at h
  | [_], _, h => by simp [findMarker] at h
  | x :: y :: rest, p, h => by
    unfold findMarker at h
    split at h
    · simp at h; simp [← h]
    · obtain ⟨q, hq, rfl⟩ := Option.map_eq_some_iff.mp h
      have := findMarker_lt (y :: rest) q hq
      simp at this ⊢; omega

/-- What becomes of a candidate: TLM, ACK or CKERR (R189 to R191). -/
theorem judge_cases (f : List Byte) (prev : Option TlmRecord) :
    (frameValid f = false ∧ judge f prev = (.ckerr f, prev)) ∨
      (frameValid f = true ∧ f.length = 32 ∧
        judge f prev = (.tlm (telemetryRecord f) (prev.getD (telemetryRecord f)), some (telemetryRecord f))) ∨
      (frameValid f = true ∧ f.length ≠ 32 ∧ judge f prev = (.ack f, prev)) := by
  cases h : frameValid f
  · simp [judge, h]
  · by_cases hl : f.length = 32 <;> simp [judge, h, hl, lenTlm]

/-- More passes than there are bytes change nothing: the scan's bound is never what ends it (R192). -/
theorem scanLoop_fuel : ∀ (n : Nat) (buf : List Byte) (prev : Option TlmRecord), buf.length ≤ n →
    scanLoop n buf prev = scan buf prev := by
  have key : ∀ (n m : Nat) (buf : List Byte) (prev : Option TlmRecord), buf.length ≤ n → buf.length ≤ m →
      scanLoop n buf prev = scanLoop m buf prev := by
    intro n
    induction n with
    | zero =>
      intro m buf prev hn _
      have hb : buf = [] := List.length_eq_zero_iff.mp (by omega)
      cases m <;> simp [scanLoop, hb, findMarker, trimNoMarker]
    | succ n ih =>
      intro m buf prev hn hm
      cases m with
      | zero =>
        have hb : buf = [] := List.length_eq_zero_iff.mp (by omega)
        simp [scanLoop, hb, findMarker, trimNoMarker]
      | succ m =>
        simp only [scanLoop]
        cases hp : findMarker buf with
        | none => rfl
        | some p =>
          dsimp only
          split
          · rfl
          · split
            · rfl
            · have hpos := frameLength_pos (byteAt (buf.drop p) 2)
              rw [ih m ((buf.drop p).drop _) _ (by simp; omega) (by simp; omega)]
  intro n buf prev h
  exact key n buf.length buf prev h (Nat.le_refl _)

/-- All that arriving bytes can do: the scan's buffer and previous record, and its events as the result. -/
theorem State.arrive_eq (s : State) (sop : Bool) (bytes : List Byte) :
    s.arrive sop bytes = .next { s with
      buf := (receive sop bytes s.buf s.prev).buf
      prev := (receive sop bytes s.buf s.prev).prev
      result := some (.ok (.events (receive sop bytes s.buf s.prev).events)) } := rfl

/-- A chunk is refused exactly where its length is not legal, and otherwise arrives. -/
theorem State.pushChunk_cases (s : State) (c : List Byte) :
    ((c.length = 0 ∨ s.params.chunkMax < c.length) ∧ s.pushChunk c = .refused (.badLength c.length)) ∨
      (1 ≤ c.length ∧ c.length ≤ s.params.chunkMax ∧ s.pushChunk c = s.arrive true c) := by
  by_cases h : c.length = 0 ∨ c.length > s.params.chunkMax
  · exact .inl ⟨h, by simp only [State.pushChunk, if_pos h]⟩
  · exact .inr ⟨by omega, by omega, by simp only [State.pushChunk, if_neg h]⟩

/-- A chunk of legal length arrives. -/
theorem State.pushChunk_legal (s : State) (c : List Byte) (h1 : 1 ≤ c.length) (h2 : c.length ≤ s.params.chunkMax) :
    s.pushChunk c = s.arrive true c := by
  rcases s.pushChunk_cases c with ⟨h, _⟩ | ⟨_, _, h⟩
  · omega
  · exact h

/-! ### What a step can do -/

/-- Where a step answers a next state, either nothing was issued and the state is as it was, or the oldest issue
decodes to an instruction and the state is that instruction's. -/
theorem step_cases (s t : State) (h : step s = .next t) :
    (s.input = [] ∧ t = s) ∨
      ∃ w rest i, s.input = w :: rest ∧ decode w = .ok i ∧ exec i { s with input := rest } = .next t := by
  cases hs : s.input with
  | nil =>
    simp only [step, s.takeIssue_nil hs] at h
    exact .inl ⟨rfl, (Host.Outcome.next.inj h).symm⟩
  | cons w rest =>
    simp only [step, s.takeIssue_cons w rest hs] at h
    split at h
    · simp at h
    · rename_i i hi
      exact .inr ⟨w, rest, i, rfl, hi, h⟩

end Sys2Proof.Machine
end

