-- ==== Sys2Proof/Laws/Scan.lean ====
section
/-! SUPPORT. The scan as an equation, and its behaviour on a buffer that grows: what stands before the first marker
does not matter, and a scan may be interrupted at any byte. -/

namespace Sys2Proof.Machine

/-- SCAN as R180 writes it: one pass, and the scan again on the shorter buffer. -/
theorem scan_eq (buf : List Byte) (prev : Option TlmRecord) :
    scan buf prev =
      match findMarker buf with
      | none => ⟨[], trimNoMarker buf, prev⟩
      | some p =>
        let b := buf.drop p
        let len := frameLength (byteAt b 2)
        if b.length < 3 then ⟨[], b, prev⟩
        else if b.length < len then ⟨[], b, prev⟩
        else
          let j := judge (b.take len) prev
          let r := scan (b.drop len) j.2
          ⟨j.1 :: r.events, r.buf, r.prev⟩ := by
  rw [← scanLoop_fuel (buf.length + 1) buf prev (Nat.le_succ _)]
  simp only [scanLoop]
  cases findMarker buf with
  | none => rfl
  | some p => simp only [scanLoop_fuel buf.length ((buf.drop p).drop _) _ (by simp)]

/-- A scan that finds no marker. -/
theorem scan_none (buf : List Byte) (prev : Option TlmRecord) (h : findMarker buf = none) :
    scan buf prev = ⟨[], trimNoMarker buf, prev⟩ := by
  rw [scan_eq, h]

@[simp] theorem scan_nil (prev : Option TlmRecord) : scan [] prev = ⟨[], [], prev⟩ := rfl

/-- A byte that does not begin a marker with the byte after it is passed over. -/
theorem findMarker_cons (a : Byte) (y : List Byte) (h : ¬(a = marker0 ∧ y.head? = some marker1)) :
    findMarker (a :: y) = (findMarker y).map (· + 1) := by
  cases y with
  | nil => rfl
  | cons b r => rw [findMarker, if_neg (by simpa using h)]

/-- The marker found in a buffer is the one found when bytes are appended to it. -/
theorem findMarker_append : ∀ (x y : List Byte) (p : Nat), findMarker x = some p → findMarker (x ++ y) = some p
  | [], _, _, h => by simp [findMarker] at h
  | [_], _, _, h => by simp [findMarker] at h
  | a :: b :: r, y, p, h => by
    simp only [List.cons_append, findMarker] at h ⊢
    split
    · next hm => rw [if_pos hm] at h; exact h
    · next hm =>
      rw [if_neg hm] at h
      obtain ⟨q, hq, rfl⟩ := Option.map_eq_some_iff.mp h
      have := findMarker_append (b :: r) y q hq
      simp only [List.cons_append] at this
      rw [this]; rfl

/-- From the marker found, the marker stands at offset 0. -/
theorem findMarker_drop : ∀ (z : List Byte) (p : Nat), findMarker z = some p → findMarker (z.drop p) = some 0
  | [], _, h => by simp [findMarker] at h
  | [_], _, h => by simp [findMarker] at h
  | a :: b :: r, p, h => by
    simp only [findMarker] at h
    split at h
    · next hm => cases h; simp [findMarker, hm]
    · obtain ⟨q, hq, rfl⟩ := Option.map_eq_some_iff.mp h
      simpa using findMarker_drop (b :: r) q hq

/-- What stands before the marker does not matter to the scan (R184). -/
theorem scan_drop (z : List Byte) (p : Nat) (prev : Option TlmRecord) (h : findMarker z = some p) :
    scan z prev = scan (z.drop p) prev := by
  rw [scan_eq z, scan_eq (z.drop p), h, findMarker_drop z p h]
  rfl

/-- A byte that cannot begin a marker with the byte after it does not matter, where there is a byte after it. -/
theorem scan_cons (a : Byte) (y : List Byte) (prev : Option TlmRecord) (hy : y ≠ [])
    (h : ¬(a = marker0 ∧ y.head? = some marker1)) : scan (a :: y) prev = scan y prev := by
  cases hm : findMarker y with
  | none =>
    rw [scan_none _ _ (by rw [findMarker_cons a y h, hm]; rfl), scan_none _ _ hm]
    cases y with
    | nil => exact absurd rfl hy
    | cons b r => simp [trimNoMarker]
  | some p =>
    rw [scan_drop (a :: y) (p + 1) prev (by rw [findMarker_cons a y h, hm]; rfl), scan_drop y p prev hm]
    simp

/-- A byte other than `EB` does not matter. -/
theorem scan_cons_ne (a : Byte) (y : List Byte) (prev : Option TlmRecord) (h : a ≠ marker0) :
    scan (a :: y) prev = scan y prev := by
  cases y with
  | nil => simp [scan, scanLoop, findMarker, trimNoMarker, h]
  | cons b r => exact scan_cons a _ prev (by simp) (by simp [h])

/-- Bytes with no marker may be trimmed before more arrive (R207's reason). -/
theorem scan_trim : ∀ (x y : List Byte) (prev : Option TlmRecord), findMarker x = none →
    scan (x ++ y) prev = scan (trimNoMarker x ++ y) prev
  | [], _, _, _ => rfl
  | [a], y, prev, _ => by
    by_cases ha : a = marker0
    · simp [trimNoMarker, ha]
    · simp [trimNoMarker, ha, scan_cons_ne a y prev ha]
  | a :: b :: r, y, prev, h => by
    simp only [findMarker] at h
    split at h
    · simp at h
    · next hm =>
      have ih := scan_trim (b :: r) y prev (by simpa using h)
      have ht : trimNoMarker (a :: b :: r) = trimNoMarker (b :: r) := by simp [trimNoMarker]
      rw [ht, ← ih, List.cons_append, scan_cons a _ prev (by simp) (by simpa using hm)]

/-- A scan may be interrupted: scanning part of the bytes and then what it left with the rest finds the same events
and leaves the same buffer and record as scanning them all (the reason R206 gives). -/
theorem scan_append (x y : List Byte) (prev : Option TlmRecord) :
    scan (x ++ y) prev =
      ⟨(scan x prev).events ++ (scan ((scan x prev).buf ++ y) (scan x prev).prev).events,
        (scan ((scan x prev).buf ++ y) (scan x prev).prev).buf,
        (scan ((scan x prev).buf ++ y) (scan x prev).prev).prev⟩ := by
  induction hn : x.length using Nat.strong_induction_on generalizing x prev with
  | _ n ih =>
    cases hm : findMarker x with
    | none => rw [scan_none x prev hm]; simp [scan_trim x y prev hm]
    | some p =>
      have hlt := findMarker_lt x p hm
      have hmy := findMarker_append x y p hm
      have hd : (x ++ y).drop p = x.drop p ++ y := by rw [List.drop_append_of_le_length (by omega)]
      have hwait : scan x prev = ⟨[], x.drop p, prev⟩ → scan (x ++ y) prev =
          ⟨(scan x prev).events ++ (scan ((scan x prev).buf ++ y) (scan x prev).prev).events,
            (scan ((scan x prev).buf ++ y) (scan x prev).prev).buf,
            (scan ((scan x prev).buf ++ y) (scan x prev).prev).prev⟩ := by
        intro hw
        rw [hw]
        simp only [List.nil_append]
        rw [scan_drop _ p prev hmy, hd]
      by_cases h3 : (x.drop p).length < 3
      · exact hwait (by rw [scan_eq, hm]; simp only [if_pos h3])
      · by_cases hL : (x.drop p).length < frameLength (byteAt (x.drop p) 2)
        · exact hwait (by rw [scan_eq, hm]; simp only [if_neg h3, if_pos hL])
        · have hb2 : byteAt (x.drop p ++ y) 2 = byteAt (x.drop p) 2 := by
            simp only [byteAt, List.getD_eq_getElem?_getD]
            rw [List.getElem?_append_left (by omega)]
          have hx : scan x prev =
              ⟨(judge ((x.drop p).take (frameLength (byteAt (x.drop p) 2))) prev).1 ::
                (scan ((x.drop p).drop (frameLength (byteAt (x.drop p) 2)))
                  (judge ((x.drop p).take (frameLength (byteAt (x.drop p) 2))) prev).2).events,
               (scan ((x.drop p).drop (frameLength (byteAt (x.drop p) 2)))
                  (judge ((x.drop p).take (frameLength (byteAt (x.drop p) 2))) prev).2).buf,
               (scan ((x.drop p).drop (frameLength (byteAt (x.drop p) 2)))
                  (judge ((x.drop p).take (frameLength (byteAt (x.drop p) 2))) prev).2).prev⟩ := by
            rw [scan_eq, hm]; simp only [if_neg h3, if_neg hL]
          have hpos := frameLength_pos (byteAt (x.drop p) 2)
          have hrest := ih ((x.drop p).drop (frameLength (byteAt (x.drop p) 2))).length (by simp at h3 hL ⊢; omega)
            ((x.drop p).drop (frameLength (byteAt (x.drop p) 2)))
            (judge ((x.drop p).take (frameLength (byteAt (x.drop p) 2))) prev).2 rfl
          rw [hx, scan_eq, hmy]
          simp only [hd, hb2]
          rw [if_neg (by simp at h3 ⊢; omega), if_neg (by simp at hL ⊢; omega),
            List.take_append_of_le_length (by omega), List.drop_append_of_le_length (by omega), hrest]
          simp

end Sys2Proof.Machine
end

