-- ==== Sys2Proof/Laws/Exec.lean ====
section
/-! SUPPORT. What an instruction can do, said once: where `exec` answers a next state, it is of one of three forms. -/

namespace Sys2Proof.Machine

/-- The result of an instruction of the stateless units: ENC's, CKSUM's, VALIDATE's or DECODE_TLM's. -/
inductive StatelessResult : Instr → Result → Prop where
  | enc (k : Kind) (v : Word) : StatelessResult (encInstr k v) (encodeCommand k v)
  | cksum (f : List Byte) : StatelessResult (.cksum f) (.ok (.byte (frameChecksum f)))
  | validate (f : List Byte) : StatelessResult (.validate f) (.ok (.bool (frameValid f)))
  | decodeTlm (f : List Byte) (h : f.length = 32) : StatelessResult (.decodeTlm f) (decodeTelemetry f)

/-- ENC returns the reserved code for no value. -/
theorem encodeCommand_ne_reserved (k : Kind) (v : Word) : encodeCommand k v ≠ .err .responseLengthMismatch := by
  rcases encodeCommand_cases k v with ⟨_, h⟩ | ⟨_, h⟩ <;> simp [h]

/-- The decoder returns the reserved code for no frame. -/
theorem decodeTelemetry_ne_reserved (f : List Byte) : decodeTelemetry f ≠ .err .responseLengthMismatch := by
  rcases decodeTelemetry_cases f with ⟨_, h⟩ | ⟨_, h⟩ <;> simp [h]

/-- Completing with any result but the reserved error answers the state with that result. -/
theorem State.complete_of_ne (s : State) (r : Result) (h : r ≠ .err .responseLengthMismatch) :
    s.complete r = .next { s with result := some r } := by
  rcases r with v | e
  · rfl
  · cases e with
    | outOfRange => rfl
    | checksumError => rfl
    | responseLengthMismatch => exact absurd rfl h

/-- The Poll literal is the frame of the common form, whatever the value (R69). -/
theorem commandFrame_poll (v : Word) : commandFrame .poll v = pollFrame := by
  simp only [commandFrame, if_true]
  decide

/-- ENC completes for every kind, value and state. -/
theorem exec_encInstr (k : Kind) (v : Word) (s : State) :
    exec (encInstr k v) s = .next { s with result := some (encodeCommand k v) } := by
  cases k with
  | poll => simp [encInstr, exec, execEncPoll, encodeCommand, inRange, Kind.boundMagnitude, commandFrame_poll]
  | current => exact s.complete_of_ne _ (encodeCommand_ne_reserved _ _)
  | speed => exact s.complete_of_ne _ (encodeCommand_ne_reserved _ _)
  | torque => exact s.complete_of_ne _ (encodeCommand_ne_reserved _ _)

/-- A chunk that completes has arrived. -/
theorem State.pushChunk_next (s t : State) (c : List Byte) (h : s.pushChunk c = .next t) :
    1 ≤ c.length ∧ c.length ≤ s.params.chunkMax ∧ s.arrive true c = .next t := by
  rcases s.pushChunk_cases c with ⟨_, hr⟩ | ⟨h1, h2, ha⟩
  · rw [hr] at h; exact absurd h (by simp)
  · exact ⟨h1, h2, ha ▸ h⟩

/-- All that an instruction can do. -/
theorem exec_cases (i : Instr) (s t : State) (h : exec i s = .next t) :
    (∃ r, StatelessResult i r ∧ t = { s with result := some r }) ∨
      (i = .reset ∧ t = { s with buf := [], prev := none, result := some (.ok .unit) }) ∨
      ∃ sop bytes, arrivalOf i = some (sop, bytes) ∧ s.arrive sop bytes = .next t := by
  have enc : ∀ k v, exec (encInstr k v) s = .next t →
      ∃ r, StatelessResult (encInstr k v) r ∧ t = { s with result := some r } := by
    intro k v h
    rw [exec_encInstr] at h
    exact ⟨_, .enc k v, (Host.Outcome.next.inj h).symm⟩
  have chunk : ∀ c, s.pushChunk c = .next t → s.arrive true c = .next t := fun c h => (s.pushChunk_next t c h).2.2
  cases i with
  | encPoll v => exact .inl (enc .poll v h)
  | encCurrent v => exact .inl (enc .current v h)
  | encSpeed v => exact .inl (enc .speed v h)
  | encTorque v => exact .inl (enc .torque v h)
  | cksum f =>
    simp only [exec, execCksum] at h
    split at h
    · exact .inl ⟨_, .cksum f, (Host.Outcome.next.inj h).symm⟩
    · exact absurd h (by simp)
  | validate f =>
    simp only [exec, execValidate] at h
    split at h
    · exact .inl ⟨_, .validate f, (Host.Outcome.next.inj h).symm⟩
    · exact absurd h (by simp)
  | decodeTlm f =>
    simp only [exec, execDecodeTlm] at h
    split at h
    · next hl =>
      rw [s.complete_of_ne _ (decodeTelemetry_ne_reserved f)] at h
      exact .inl ⟨_, .decodeTlm f hl, (Host.Outcome.next.inj h).symm⟩
    · exact absurd h (by simp)
  | push c => exact .inr (.inr ⟨true, c, rfl, chunk c h⟩)
  | pushByte b sop =>
    simp only [exec, execPushByte] at h
    split at h
    · exact .inr (.inr ⟨sop, [b], rfl, h⟩)
    · exact absurd h (by simp)
  | reset => exact .inr (.inl ⟨rfl, (Host.Outcome.next.inj h).symm⟩)
  | cmdCurrent p x => exact .inr (.inr ⟨true, _, rfl, chunk _ h⟩)
  | cmdSpeed p x => exact .inr (.inr ⟨true, _, rfl, chunk _ h⟩)
  | cmdTorque p x => exact .inr (.inr ⟨true, _, rfl, chunk _ h⟩)
  | cmdPoll => exact .inr (.inr ⟨true, _, rfl, chunk _ h⟩)
  | rspTlm x => exact .inr (.inr ⟨true, _, rfl, chunk _ h⟩)
  | rspAck d p x => exact .inr (.inr ⟨true, _, rfl, chunk _ h⟩)

end Sys2Proof.Machine
end

