-- ==== Sys2Proof/Laws/PerInstr.lean ====
section
/-! SUPPORT. Statements made per instruction: the first bytes of an instruction's words are the `match` of its row
of spec/opcode_table.json. -/

namespace Sys2Proof.Laws.TableSelector

/-- How many bytes of the words the row's `match` covers, and the number they make, read big-endian. -/
def selector : Instr → Nat × Nat
  | .encPoll _ => (1, 0x10)
  | .encCurrent _ => (1, 0x11)
  | .encSpeed _ => (1, 0x12)
  | .encTorque _ => (1, 0x13)
  | .cksum _ => (1, 0x20)
  | .validate _ => (1, 0x21)
  | .decodeTlm _ => (1, 0x30)
  | .push _ => (1, 0x40)
  | .pushByte _ _ => (1, 0x41)
  | .reset => (1, 0xF0)
  | .cmdCurrent _ _ => (3, 0xEB90D1)
  | .cmdSpeed _ _ => (3, 0xEB90D2)
  | .cmdTorque _ _ => (3, 0xEB90D3)
  | .cmdPoll => (8, 0xEB90DD00000000DD)
  | .rspTlm _ => (3, 0xEB90DD)
  | .rspAck _ _ _ => (2, 0xEB90)

/-- The words of the instruction begin with its row's `match`. -/
def Statement (i : Instr) : Prop := packFrame ((encode i).bytes.take (selector i).1) = (selector i).2

theorem encPoll (v : Word) : Statement (.encPoll v) := rfl
theorem encCurrent (v : Word) : Statement (.encCurrent v) := rfl
theorem encSpeed (v : Word) : Statement (.encSpeed v) := rfl
theorem encTorque (v : Word) : Statement (.encTorque v) := rfl
theorem cksum (f : List Byte) : Statement (.cksum f) := rfl
theorem validate (f : List Byte) : Statement (.validate f) := rfl
theorem decodeTlm (f : List Byte) : Statement (.decodeTlm f) := rfl
theorem push (c : List Byte) : Statement (.push c) := rfl
theorem pushByte (b : Byte) (sop : Bool) : Statement (.pushByte b sop) := rfl
theorem reset : Statement .reset := rfl
theorem cmdCurrent (p : Word) (x : Byte) : Statement (.cmdCurrent p x) := rfl
theorem cmdSpeed (p : Word) (x : Byte) : Statement (.cmdSpeed p x) := rfl
theorem cmdTorque (p : Word) (x : Byte) : Statement (.cmdTorque p x) := rfl
theorem cmdPoll : Statement .cmdPoll := rfl
theorem rspTlm (t : TlmFields) : Statement (.rspTlm t) := rfl
theorem rspAck (d : Byte) (p : Word) (x : Byte) : Statement (.rspAck d p x) := rfl

end Sys2Proof.Laws.TableSelector
end

