-- ==== Sys2Proof/Tests/Slice0.lean ====
section
/-! SUPPORT. Small tests. Expected values are those of spec/95_test_vectors.md (the id stands in the test's comment)
or of the rule named there; then, for each statement with hypotheses, a state and operands that meet them. -/

namespace Sys2Proof.Tests

open Sys2Proof Sys2Proof.Machine

/-! ### Helpers -/

/-- A block that takes chunks of 128 bytes and has the byte-serial port, at reset. -/
def block : State := { State.reset with params := ⟨128, true, 1, false⟩ }

/-- The same block with bytes in its buffer. -/
def holding (buf : List Byte) : State := { block with buf := buf }

/-- The result of an operation on a state; none where it does not complete. -/
def resultOf (i : Instr) (s : State) : Option Result :=
  match exec i s with
  | .next t => t.result
  | .fault _ => none
  | .refused _ => none

/-- The refusal of an operation. -/
def refusalIn (o : Host.Outcome State Fault Refusal) : Option Refusal :=
  match o with
  | .next _ => none
  | .fault _ => none
  | .refused r => some r

/-- The step's state, where there is one. -/
def nextOf (o : Host.Outcome State Fault Refusal) : Option State :=
  match o with
  | .next t => some t
  | .fault _ => none
  | .refused _ => none

/-- The events, buffer and previous record after a run. -/
def after (is : List Instr) (s : State) : Option ScanResult := resyncRun is s

def a1 : List Byte := [0xEB, 0x90, 0xD2, 0x42, 0xC8, 0x00, 0x00, 0xDC]

def t1 : List Byte :=
  [0xEB, 0x90, 0xDD, 0xD2, 0x42, 0xC8, 0x00, 0x00, 0x42, 0xC7, 0x00, 0x00, 0x42, 0xF0, 0x80, 0x00,
   0xC0, 0x00, 0x00, 0x00, 0x05, 0x07, 0x00, 0x01, 0xF4, 0x19, 0x00, 0x00, 0x00, 0x00, 0x00, 0x4E]

def t2 : List Byte :=
  [0xEB, 0x90, 0xDD, 0xD3, 0x41, 0xF0, 0x00, 0x00, 0x00, 0x00, 0x00, 0x00, 0x00, 0x00, 0x00, 0x00,
   0x00, 0x00, 0x00, 0x00, 0xFF, 0x00, 0x01, 0xFF, 0xFF, 0xEB, 0x80, 0x01, 0x02, 0x03, 0x04, 0x54]

/-- The record of T1, written out from V-D1. -/
def r1 : TlmRecord :=
  { header := ⟨0xEB, 0x90, 0xDD⟩, lastCommand := 0xD2, controlTarget := 0x42C80000, speedFeedback := 0x42C70000,
    currentFeedback := 0x42F08000, accelerationFeedback := 0xC0000000, commandResponseCount := 5,
    telemetryCommandCount := 7, errorCommandCount := 0, motherboardCurrent := 500, temperature := 25,
    singleMotorStatus := 0, reserved := ⟨0, 0, 0, 0⟩, checksum := 0x4E }

/-- The record of T2, written out from V-D2. -/
def r2 : TlmRecord :=
  { header := ⟨0xEB, 0x90, 0xDD⟩, lastCommand := 0xD3, controlTarget := 0x41F00000, speedFeedback := 0,
    currentFeedback := 0, accelerationFeedback := 0, commandResponseCount := 255, telemetryCommandCount := 0,
    errorCommandCount := 1, motherboardCurrent := 65535, temperature := 0xEB, singleMotorStatus := 0x80,
    reserved := ⟨1, 2, 3, 4⟩, checksum := 0x54 }

/-- The fields of the all-zero frame with this checksum. -/
def zeroFields (x : Byte) : TlmFields := ⟨0, 0, 0, 0, 0, 0, 0, 0, 0, 0, 0, ⟨0, 0, 0, 0⟩, x⟩

/-! ### WellFormed: an ill-formed term for each check -/

theorem test_wellFormed_cksum_seven_bytes : Instr.wellFormed ⟨64, true, 1, false⟩ (.cksum [0, 0, 0, 0, 0, 0, 0]) = false := by decide
theorem test_wellFormed_validate_empty : Instr.wellFormed ⟨64, true, 1, false⟩ (.validate []) = false := by decide
theorem test_wellFormed_decodeTlm_eight_bytes : Instr.wellFormed ⟨64, true, 1, false⟩ (.decodeTlm a1) = false := by decide
theorem test_wellFormed_push_empty : Instr.wellFormed ⟨64, true, 1, false⟩ (.push []) = false := by decide
theorem test_wellFormed_push_too_long : Instr.wellFormed ⟨7, true, 1, false⟩ (.push a1) = false := by decide
theorem test_wellFormed_pushByte_no_port : Instr.wellFormed ⟨64, false, 1, false⟩ (.pushByte 0 false) = false := by decide
theorem test_wellFormed_cmd_longer_than_chunk :
    Instr.wellFormed ⟨7, true, 1, false⟩ (.cmdCurrent 0 0) = false ∧ Instr.wellFormed ⟨7, true, 1, false⟩ (.cmdSpeed 0 0) = false ∧
      Instr.wellFormed ⟨7, true, 1, false⟩ (.cmdTorque 0 0) = false ∧ Instr.wellFormed ⟨7, true, 1, false⟩ .cmdPoll = false := by decide
theorem test_wellFormed_rspTlm_longer_than_chunk : Instr.wellFormed ⟨31, true, 1, false⟩ (.rspTlm (zeroFields 0)) = false := by decide
theorem test_wellFormed_rspAck_longer_than_chunk : Instr.wellFormed ⟨7, true, 1, false⟩ (.rspAck 0 0 0) = false := by decide
/-- On the receive side no discriminator is illegal (R68). -/
theorem test_wellFormed_rspAck_any_discriminator : ∀ d : Byte, Instr.wellFormed ⟨8, true, 1, false⟩ (.rspAck d 0 0) = true := fun _ => rfl

/-! ### Decoding: a word for each constructor, written out from R60 to R70 and the layout of log 2 -/

theorem test_decode_encPoll : decode ⟨.operation, [0x10, 0x7F, 0xC0, 0x00, 0x00]⟩ = .ok (.encPoll 0x7FC00000) := by decide
theorem test_decode_encCurrent : decode ⟨.operation, [0x11, 0xC4, 0xBB, 0x80, 0x00]⟩ = .ok (.encCurrent 0xC4BB8000) := by decide
theorem test_decode_encSpeed : decode ⟨.operation, [0x12, 0x42, 0xC8, 0x00, 0x00]⟩ = .ok (.encSpeed 0x42C80000) := by decide
theorem test_decode_encTorque : decode ⟨.operation, [0x13, 0xC1, 0xF0, 0x00, 0x00]⟩ = .ok (.encTorque 0xC1F00000) := by decide
theorem test_decode_cksum : decode ⟨.operation, [0x20, 0xEB, 0x90, 0xD2, 0x42, 0xC8, 0x00, 0x00, 0xDC]⟩ = .ok (.cksum a1) := by decide
theorem test_decode_validate : decode ⟨.operation, [0x21, 0xEB, 0x90, 0xD2, 0x42, 0xC8, 0x00, 0x00, 0xDC]⟩ = .ok (.validate a1) := by decide
theorem test_decode_decodeTlm : decode ⟨.operation, 0x30 :: t1⟩ = .ok (.decodeTlm t1) := by decide
theorem test_decode_push : decode ⟨.operation, [0x40, 0x55, 0xEB]⟩ = .ok (.push [0x55, 0xEB]) := by decide
theorem test_decode_pushByte : decode ⟨.operation, [0x41, 0xEB, 0x01]⟩ = .ok (.pushByte 0xEB true) := by decide
theorem test_decode_reset : decode ⟨.operation, [0xF0]⟩ = .ok .reset := by decide
theorem test_decode_cmdCurrent : decode ⟨.commandLink, [0xEB, 0x90, 0xD1, 0x44, 0xBB, 0x80, 0x00, 0x50]⟩ = .ok (.cmdCurrent 0x44BB8000 0x50) := by decide
theorem test_decode_cmdSpeed : decode ⟨.commandLink, [0xEB, 0x90, 0xD2, 0x42, 0xC8, 0x00, 0x00, 0xDC]⟩ = .ok (.cmdSpeed 0x42C80000 0xDC) := by decide
theorem test_decode_cmdTorque : decode ⟨.commandLink, [0xEB, 0x90, 0xD3, 0xC1, 0xF0, 0x00, 0x00, 0x84]⟩ = .ok (.cmdTorque 0xC1F00000 0x84) := by decide
theorem test_decode_cmdPoll : decode ⟨.commandLink, [0xEB, 0x90, 0xDD, 0x00, 0x00, 0x00, 0x00, 0xDD]⟩ = .ok .cmdPoll := by decide
theorem test_decode_rspTlm : decode ⟨.responseLink, t1⟩ = .ok (.rspTlm r1.toTlmFields) := by decide
theorem test_decode_rspAck : decode ⟨.responseLink, [0xEB, 0x90, 0xD2, 0x42, 0xC8, 0x00, 0x00, 0xDC]⟩ = .ok (.rspAck 0xD2 0x42C80000 0xDC) := by decide

/-- V-E28: tag 14 selects no operation. -/
theorem test_decode_illegal_tag : decode ⟨.operation, [0x14, 0, 0, 0, 0]⟩ = .error (.illegalOp 0x14) := by decide
/-- A start-of-chunk bit is one bit (R73). -/
theorem test_decode_sop_not_a_bit : decode ⟨.operation, [0x41, 0xEB, 0x02]⟩ = .error .badOperand := by decide
/-- The encoder sends no code `D4`, and a receiver takes it as an acknowledgment's (R68). -/
theorem test_decode_unknown_command_frame :
    decode ⟨.commandLink, [0xEB, 0x90, 0xD4, 0, 0, 0, 0, 0xD4]⟩ = .ok (.push [0xEB, 0x90, 0xD4, 0, 0, 0, 0, 0xD4]) := by decide
/-- Eight bytes with the telemetry discriminator are no response, but part of one (R67). -/
theorem test_decode_short_telemetry : decode ⟨.responseLink, pollFrame⟩ = .ok (.push pollFrame) := by decide
/-- They wait in the buffer (R187, R267). -/
theorem test_step_short_telemetry_waits :
    (nextOf (step { block with input := [⟨.responseLink, pollFrame⟩] })).map (·.buf) = some pollFrame := by decide
/-- Bytes that are no frame never stop the resynchronizer (R204). -/
theorem test_step_garbage_on_the_link :
    (nextOf (step { block with input := [⟨.responseLink, [0x00, 0x55, 0xEB]⟩] })).map (·.buf) = some [0xEB] := by decide

theorem test_tableWord_cmdTorque : decodeTableWord 24 0xEB90D3 = some (.cmdTorque 0 0) := by decide
theorem test_tableWord_cmdPoll : decodeTableWord 64 0xEB90DD00000000DD = some .cmdPoll := by decide
theorem test_tableWord_rspTlm : decodeTableWord 24 0xEB90DD = some (.rspTlm (zeroFields 0)) := by decide
theorem test_tableWord_rspAck : decodeTableWord 24 0xEB9000 = some (.rspAck 0 0 0) := by decide
theorem test_tableWord_push : decodeTableWord 8 0x40 = some (.push [0]) := by decide
/-- The first step after reset runs the word, whatever the block's parameters. -/
theorem test_withFetchWord_reset : (nextOf (step (State.reset.withFetchWord 8 0xF0))).map (·.result) = some (some (.ok .unit)) := by decide
theorem test_withFetchWord_pushByte : (nextOf (step (State.reset.withFetchWord 8 0x41))).map (·.result) = some (some (.ok (.events []))) := by decide

/-! ### Command encoder -/

/-- V-E4. -/
theorem test_encCurrent_upper_bound : resultOf (.encCurrent 0x44BB8000) block = some (.ok (.frame [0xEB, 0x90, 0xD1, 0x44, 0xBB, 0x80, 0x00, 0x50])) := by decide
/-- V-E20. -/
theorem test_encCurrent_below_range : resultOf (.encCurrent 0xC4BB8001) block = some (.err .outOfRange) := by decide
/-- V-E13. -/
theorem test_encSpeed_negative_subnormal : resultOf (.encSpeed 0x807FFFFF) block = some (.ok (.frame [0xEB, 0x90, 0xD2, 0x80, 0x7F, 0xFF, 0xFF, 0xCF])) := by decide
/-- V-E22. -/
theorem test_encSpeed_infinity : resultOf (.encSpeed 0xFF800000) block = some (.err .outOfRange) := by decide
/-- V-E3. -/
theorem test_encTorque_checksum_wraps : resultOf (.encTorque 0xC1F00000) block = some (.ok (.frame [0xEB, 0x90, 0xD3, 0xC1, 0xF0, 0x00, 0x00, 0x84])) := by decide
/-- V-E25. -/
theorem test_encTorque_speed_value : resultOf (.encTorque 0x42C80000) block = some (.err .outOfRange) := by decide
/-- V-E27. -/
theorem test_encPoll_ignores_nan : resultOf (.encPoll 0x7FC00000) block = some (.ok (.frame [0xEB, 0x90, 0xDD, 0, 0, 0, 0, 0xDD])) := by decide
/-- G3: the bounds' patterns denote 1500, 6050 and 50. -/
theorem test_binary32_bounds :
    binary32Value 0x44BB8000 = .finite (1500 * 2 ^ 149) ∧ binary32Value 0xC5BD1000 = .finite (-(6050 * 2 ^ 149)) ∧
      binary32Value 0x42480000 = .finite (50 * 2 ^ 149) := by decide
/-- G10. -/
theorem test_binary32_special :
    binary32Value 0x7F800000 = .infinity false ∧ binary32Value 0xFF800000 = .infinity true ∧
      binary32Value 0x7FC00000 = .nan ∧ binary32Value 0xFFFFFFFF = .nan := by decide

/-! ### Checksum unit -/

/-- V-C3. -/
theorem test_cksum_thirty_two_bytes : resultOf (.cksum ([0xEB, 0x90, 0xDD] ++ List.replicate 28 0xFF ++ [0x00])) block = some (.ok (.byte 0xC1)) := by decide
/-- V-C11. -/
theorem test_cksum_seven_bytes : refusalIn (exec (.cksum [0xEB, 0x90, 0xD2, 0x42, 0xC8, 0x00, 0x00]) block) = some (.badLength 7) := by decide
/-- V-C7. -/
theorem test_validate_flipped_bit : resultOf (.validate [0xEB, 0x90, 0xD2, 0x42, 0xC8, 0x00, 0x80, 0xDC]) block = some (.ok (.bool false)) := by decide
/-- V-C8. -/
theorem test_validate_marker_outside : resultOf (.validate [0x6B, 0x90, 0xD2, 0x42, 0xC8, 0x00, 0x00, 0xDC]) block = some (.ok (.bool true)) := by decide

/-! ### Telemetry decoder -/

/-- V-D2. -/
theorem test_decodeTlm_t2 : resultOf (.decodeTlm t2) block = some (.ok (.record r2)) := by decide
/-- V-D4, W4b. -/
theorem test_decodeTlm_zero_checksum : resultOf (.decodeTlm ((zeroFields 0).frame)) block = some (.err .checksumError) := by decide
/-- V-D2, R155. -/
theorem test_celsius_of_t2 : r2.celsius = -21 := by decide

/-! ### Resynchronizer -/

/-- V-R2. -/
theorem test_push_three_frames : after [.push (t1 ++ t2 ++ t1)] block = some ⟨[.tlm r1 r1, .tlm r2 r1, .tlm r1 r2], [], some r1⟩ := by decide
/-- V-R6. -/
theorem test_push_false_marker : after [.push ([0x11, 0xEB, 0x90, 0x22, 0x33] ++ t1)] block = some ⟨[.ckerr [0xEB, 0x90, 0x22, 0x33, 0xEB, 0x90, 0xDD, 0xD2]], [], none⟩ := by decide
/-- V-R5: the partial frame is lost. -/
theorem test_push_marker_led_tail : after [.push (t2.take 25), .push (t2.drop 25)] block = some ⟨[], [], none⟩ := by decide
/-- V-R13: without the start-of-chunk bit `EB` clears nothing. -/
theorem test_pushByte_keeps_partial_frame : after [.pushByte 0xEB false] (holding (t1.take 10)) = some ⟨[], t1.take 10 ++ [0xEB], none⟩ := by decide
/-- P4: the last byte of a frame. -/
theorem test_pushByte_completes_frame : after [.pushByte 0x4E false] (holding (t1.take 31)) = some ⟨[.tlm r1 r1], [], some r1⟩ := by decide
/-- V-R14. -/
theorem test_reset_discards : after [.push [0xEB, 0x90, 0xDD, 0x00], .reset, .push (List.replicate 27 0 ++ [0xDD])] block = some ⟨[], [], none⟩ := by decide

/-! ### Wire frames -/

/-- P5: an echoed Speed frame is an acknowledgment. -/
theorem test_cmdSpeed_is_acknowledged : after [.cmdSpeed 0x42C80000 0xDC] (holding [0xEB]) = some ⟨[.ack a1], [], none⟩ := by decide
/-- V-R10 on the same frame with a wrong checksum. -/
theorem test_cmdSpeed_bad_checksum : after [.cmdSpeed 0x42C80000 0xDD] block = some ⟨[.ckerr [0xEB, 0x90, 0xD2, 0x42, 0xC8, 0x00, 0x00, 0xDD]], [], none⟩ := by decide
/-- V-E5's frame, echoed. -/
theorem test_cmdCurrent_is_acknowledged : after [.cmdCurrent 0xC4BB8000 0xD0] block = some ⟨[.ack [0xEB, 0x90, 0xD1, 0xC4, 0xBB, 0x80, 0x00, 0xD0]], [], none⟩ := by decide
/-- V-E9's frame, echoed: its checksum equals `DD`. -/
theorem test_cmdTorque_is_acknowledged : after [.cmdTorque 0xC2480000 0xDD] block = some ⟨[.ack [0xEB, 0x90, 0xD3, 0xC2, 0x48, 0x00, 0x00, 0xDD]], [], none⟩ := by decide
/-- P5, operations 4 and 5: the echoed Poll frame waits, and a telemetry frame's chunk drops it. -/
theorem test_cmdPoll_waits : after [.cmdPoll] block = some ⟨[], pollFrame, none⟩ := by decide
theorem test_rspTlm_after_poll_echo : after [.rspTlm r1.toTlmFields] (holding pollFrame) = some ⟨[.tlm r1 r1], [], some r1⟩ := by decide
/-- P3, operation 6: the frame as the source prints it fails its checksum. -/
theorem test_rspTlm_zero_checksum : after [.rspTlm (zeroFields 0)] block = some ⟨[.ckerr ((zeroFields 0).frame)], [], none⟩ := by decide
/-- V-R1. -/
theorem test_rspAck_a1 : after [.rspAck 0xD2 0x42C80000 0xDC] block = some ⟨[.ack a1], [], none⟩ := by decide

/-! ### Assembler (R74, R75) -/

/-- W1 as an assembler line. -/
theorem test_assemble_decimal : assembleLine "ENC   SPEED, 100.0  ; W1" = .ok (some (.encSpeed 0x42C80000)) := by decide
/-- R269: 6050.0001 rounds to the bound itself. -/
theorem test_assemble_rounds_to_bound : assembleLine "SET_SPEED 6050.0001" = .ok (some (.encSpeed 0x45BD1000)) := by decide
/-- V-R13's notation. -/
theorem test_assemble_program : assemble ["PUSHB EB, SOP", "; nothing", "PUSHB 90", "ENC POLL", "PUSH [55 EB]"] =
    .ok [.pushByte 0xEB true, .pushByte 0x90 false, .encPoll 0, .push [0x55, 0xEB]] := by decide
/-- Halfway between two binary32 values the even one is taken (G2). -/
theorem test_nearest_ties_to_even : nearestBinary32 false 16777217 1 = 0x4B800000 ∧ nearestBinary32 false 16777219 1 = 0x4B800002 := by decide

/-- The example of R180. -/
theorem test_write_events : writeResult (.ok (.events [.ack a1])) = "=> events [ACK(EB 90 D2 42 C8 00 00 DC)]" := by decide
/-- R75's own example. -/
theorem test_write_error : writeResult (.err .outOfRange) = "=> Err(OutOfRange)" := by decide

/-! ### Witnesses: states and operands that meet the hypotheses of the statements -/

theorem witness_EncCurrentChecksRangeAndBuildsFrame :
    ((0xC4BB8000 : Word).extractLsb' 0 31).toNat ≤ 0x44BB8000 ∧ 0x44BB8000 < ((0x44BB8001 : Word).extractLsb' 0 31).toNat := by decide
theorem witness_EncSpeedChecksRangeAndBuildsFrame :
    ((0x45BD1000 : Word).extractLsb' 0 31).toNat ≤ 0x45BD1000 ∧ 0x45BD1000 < ((0x45BD1001 : Word).extractLsb' 0 31).toNat := by decide
theorem witness_EncTorqueChecksRangeAndBuildsFrame :
    ((0x42480000 : Word).extractLsb' 0 31).toNat ≤ 0x42480000 ∧ 0x42480000 < ((0xC2480001 : Word).extractLsb' 0 31).toNat := by decide
theorem witness_RangeCheckComparesTheDenotedValue : Kind.torque ≠ .poll := by decide
theorem witness_EncodedValueRoundTrips : Kind.speed ≠ .poll ∧ inRange .speed 0x80000000 = true := by decide
theorem witness_EncodedFramesAndTheirEcho :
    exec (encInstr .speed 0x42C80000) block = .next { block with result := some (.ok (.frame a1)) } ∧ 8 ≤ block.params.chunkMax :=
  ⟨rfl, by decide⟩
theorem witness_EncodedFramesAndTheirEcho_poll :
    exec (encInstr .poll 0) block = .next { block with result := some (.ok (.frame pollFrame)) } := rfl
theorem witness_OnlyEncOffersAFrame :
    exec (.encSpeed 0x42C80000) block = .next { block with result := some (.ok (.frame a1)) } ∧
      ({ block with result := some (.ok (.frame a1)) } : State).outgoingFrame = some a1 := ⟨rfl, rfl⟩
theorem witness_CksumSumsOffsetTwoToLast : a1.length = 8 ∧ t1.length = 32 ∧ (a1.drop 1).length ≠ 8 ∧ (a1.drop 1).length ≠ 32 := by decide
theorem witness_ValidateComparesTheLastByte : a1.length = 8 ∧ t1.length = 32 ∧ (t1.drop 1).length ≠ 8 ∧ (t1.drop 1).length ≠ 32 := by decide
theorem witness_SumLaws : [1#8, 2#8].Perm [2#8, 1#8] ∧ 2 ≤ 2 ∧ 2 ≤ 31 ∧ 30 < t1.length := ⟨List.Perm.swap 2#8 1#8 [], by decide⟩
theorem witness_SingleBitFlipIsDetected :
    a1.length = 8 ∧ exec (.validate a1) block = .next { block with result := some (.ok (.bool true)) } ∧ 2 ≤ 7 ∧ 7 < a1.length :=
  ⟨rfl, rfl, by decide, by decide⟩
theorem witness_SingleBitFlipIsDetected_events :
    exec (.push a1) block = .next { block with result := some (.ok (.events [.ack a1])) } := rfl
theorem witness_CompensatingChangesAreNotDetected : t1.length = 32 ∧ 20 < t1.length - 1 ∧ 21 < t1.length - 1 := by decide
theorem witness_DecodeTlmBuildsTheRecord :
    t1.length = 32 ∧ byteAt t1 31 = sum8 t1 2 31 ∧ (t1.set 9 0xC3).length = 32 ∧
      byteAt (t1.set 9 0xC3) 31 ≠ sum8 (t1.set 9 0xC3) 2 31 ∧ (t1.drop 1).length ≠ 32 := by decide
theorem witness_DecodingLosesNothing :
    exec (.decodeTlm t1) block = .next { block with result := some (.ok (.record r1)) } ∧
      exec (.decodeTlm t2) block = .next { block with result := some (.ok (.record r2)) } := ⟨rfl, rfl⟩
theorem witness_TemperatureIsSignedAndCurrentUnsigned :
    exec (.decodeTlm t2) block = .next { block with result := some (.ok (.record r2)) } := rfl
theorem witness_DecodeTlmDoesNotCheckTheMarker :
    exec (.decodeTlm t1) block = .next { block with result := some (.ok (.record r1)) } := rfl
theorem witness_PushClearsAppendsAndScans : 1 ≤ ([0x00] : List Byte).length ∧ 1 ≤ block.params.chunkMax ∧ (List.replicate 128 0xEB : List Byte).length ≤ block.params.chunkMax :=
  ⟨by decide, by decide, by simp [block]⟩
theorem witness_MarkerSearchTakesTheLeastOffset : findMarker [0xEB, 0xEB, 0x90] = some 1 ∧ findMarker [0x90, 0xEB] = none := by decide
theorem witness_ScanFollowsTheSteps_waits :
    findMarker [0x00, 0xEB, 0x90] = some 1 ∧ findMarker (0x00 :: t1.take 31) = some 1 ∧ 3 ≤ (t1.take 31).length ∧ (t1.take 31).length < 32 := by decide
theorem witness_ScanFollowsTheSteps_candidates :
    findMarker t1 = some 0 ∧ byteAt t1 31 = sum8 t1 2 31 ∧ findMarker a1 = some 0 ∧ byteAt a1 7 = sum8 a1 2 7 ∧
      findMarker (a1.set 7 0) = some 0 ∧ byteAt (a1.set 7 0) 7 ≠ sum8 (a1.set 7 0) 2 7 := by decide
theorem witness_BufferNeverOverflows :
    BufShape (holding (t1.take 31)).buf ∧ exec (.push [0x4E]) (holding (t1.take 31)) =
      .next { block with buf := [], prev := some r1, result := some (.ok (.events [.tlm r1 r1])) } := ⟨by decide, rfl⟩
theorem witness_PushEmitsBoundedEvents :
    BufShape (holding [0xEB]).buf ∧ exec (.push (a1.drop 1)) (holding [0xEB]) =
      .next { block with buf := [], result := some (.ok (.events [.ack a1])) } := ⟨by decide, rfl⟩
theorem witness_PushByteAppendsAndScans : block.params.bytePort = true ∧ BufShape (holding (t1.take 31)).buf := by decide
theorem witness_PushByteNeedsThePort : ({ block with params := ⟨128, false, 1, false⟩ } : State).params.bytePort = false := rfl
theorem witness_OnlyTelemetryAndResetWritePrev :
    exec (.rspTlm r1.toTlmFields) block =
        .next { block with prev := some r1, result := some (.ok (.events [.tlm r1 r1])) } ∧
      exec .reset block = .next { block with result := some (.ok .unit) } := ⟨rfl, rfl⟩
theorem witness_MarkerLedChunkDiscardsThePartialFrame : byteAt (t2.drop 25) 0 = 0xEB := by decide
theorem witness_ByteSerialDeliveryEqualsChunkDelivery : block.params.bytePort = true ∧ 1 ≤ t1.length ∧ t1.length ≤ block.params.chunkMax := by decide
theorem witness_ChunkBoundariesDoNotMatter :
    ([a1.take 4, a1.drop 4] : List (List Byte)).flatten.length ≤ block.params.chunkMax ∧
      after [.push a1] block = some ⟨[.ack a1], [], none⟩ ∧ after [.push (a1.take 4), .push (a1.drop 4)] block = some ⟨[.ack a1], [], none⟩ ∧
        (a1.drop 4).head? ≠ some 0xEB := by decide
theorem witness_ChunkBoundariesDoNotMatter_marker_led_chunk :
    after [.push a1] block = some ⟨[.ack a1], [], none⟩ ∧ (t1 : List Byte).head? = some 0xEB ∧ (a1 ++ t1).length ≤ block.params.chunkMax := by decide
theorem witness_RecoveryAfterGarbage :
    block.buf = [] ∧ block.prev = none ∧ HoldsNoMarker [0x90, 0xEB] ∧ WellFormedFrame t1 ∧ WellFormedFrame a1 :=
  ⟨rfl, rfl, fun p h => by simp at h; subst h; decide, by decide, by decide⟩
theorem witness_TrimChangesNoEvent : after [.push [0x00, 0xEB], .push (a1.drop 1)] block = some ⟨[.ack a1], [], none⟩ := by decide
theorem witness_ResetClearsTheResynchronizer : exec .reset (holding a1) = .next { block with result := some (.ok .unit) } := rfl
theorem witness_EchoedCommandFrames : 8 ≤ block.params.chunkMax ∧ (0xDC : Byte) = 0xD2 + 0x42 + 0xC8 + 0x00 + 0x00 := by decide
theorem witness_TelemetryFrameArrives :
    32 ≤ block.params.chunkMax ∧ r1.checksum = sum8 r1.toTlmFields.frame 2 31 ∧ (zeroFields 0).checksum ≠ sum8 (zeroFields 0).frame 2 31 := by decide
theorem witness_AcknowledgmentArrives : (0xDC : Byte) ≠ 0xDD ∧ 8 ≤ block.params.chunkMax := by decide
/-- The second clause's form: `DD` at offset 2. -/
theorem witness_AcknowledgmentArrives_telemetry_discriminator :
    discTlm = 0xDD ∧ 8 ≤ block.params.chunkMax ∧
      exec (.rspAck 0xDD 0 0xDD) block = .next { block with buf := pollFrame, result := some (.ok (.events [])) } := ⟨rfl, by decide, rfl⟩
theorem witness_ReservedCodeIsNeverReturned : exec (.encSpeed 0x7F800000) block = .next { block with result := some (.err .outOfRange) } := rfl
theorem witness_IllegalTagsAreRefused :
    (0x14 : Byte) ∉ [0x10, 0x11, 0x12, 0x13, 0x20, 0x21, 0x30, 0x40, 0x41, 0xF0] ∧
      ({ block with input := [⟨.operation, [0x14]⟩] } : State).input = ⟨.operation, [0x14]⟩ :: [] := by decide
theorem witness_RefusedExactlyWhereIllFormed :
    Instr.wellFormed block.params (.push a1) = true ∧ Instr.wellFormed block.params (.push []) = false := by decide
theorem witness_BadLengthsAreRefused :
    (a1.drop 1).length ≠ 8 ∧ (a1.drop 1).length ≠ 32 ∧ block.params.chunkMax < (List.replicate 129 0 : List Byte).length :=
  ⟨by decide, by decide, by simp [block]⟩
theorem witness_StatelessOperationsReadAndWriteNoState :
    Instr.stateless (.validate a1) = true ∧ exec (.validate a1) block = .next { block with result := some (.ok (.bool true)) } := ⟨rfl, rfl⟩
theorem witness_StepNeverWritesParameters :
    step (block.issue [.reset]) = .next { block with result := some (.ok .unit) } := rfl
theorem witness_FleetMembersAreIndependent :
    ([block, holding a1] : List State)[1]? = some (holding a1) ∧ step (holding a1) = .next (holding a1) := ⟨rfl, rfl⟩
theorem witness_HostStartActsOnlyByReset :
    block.params.resetOnStart = false ∧ ({ block with params := ⟨1, true, 1, true⟩ } : State).params.resetOnStart = true ∧
      ({ block with params := ⟨1, true, 1, true⟩ } : State).input = [] := by decide
theorem witness_StepRunsTheDecodedInstruction :
    ({ block with input := [⟨.operation, [0xF0]⟩] } : State).input = ⟨.operation, [0xF0]⟩ :: [] ∧ decode ⟨.operation, [0xF0]⟩ = .ok .reset ∧
      decode ⟨.operation, []⟩ = .error .noTag ∧ decode ⟨.operation, [0xF0, 0x00]⟩ = .error .badOperand ∧
        decode ⟨.operation, [0x14]⟩ = .error (.illegalOp 0x14) := by decide
/-- A frame, part of one, and bytes that are none. -/
theorem witness_LinkBytesAlwaysArrive :
    ({ block with input := [⟨.responseLink, a1⟩] } : State).input = ⟨.responseLink, a1⟩ :: [] ∧ Port.responseLink ≠ .operation ∧
      Port.commandLink ≠ .operation ∧ decode ⟨.responseLink, a1⟩ = .ok (.rspAck 0xD2 0x42C80000 0xDC) ∧
        decode ⟨.commandLink, [0xEB, 0x90]⟩ = .ok (.push [0xEB, 0x90]) := by decide
theorem witness_IdleStepChangesNothing : (holding a1).input = [] := rfl
theorem witness_IssuedOperationsRunInOrder : block.input = [] ∧ Instr.wellFormed block.params (.push a1) = true := by decide
theorem witness_StepKeepsTheInvariant : Inv block ∧ step (block.issue [.push a1]) = .next { block with result := some (.ok (.events [.ack a1])) } :=
  ⟨⟨by decide, by decide, by decide, fun r h => by simp [block] at h, fun r h => by simp [block] at h⟩, rfl⟩
theorem witness_DecodeOfEncodeIsTheInstruction : ∀ d b x, (.rspAck 0x00 0 0 : Instr) = .rspAck d b x → d ≠ 0xDD := by
  intro d b x h; cases h; decide
theorem witness_EncodeOfDecodeIsTheWords_link_bytes :
    decode ⟨.responseLink, pollFrame⟩ = .ok (.push pollFrame) ∧ encode (.rspAck 0xDD 0 0xDD) = ⟨.responseLink, pollFrame⟩ := by decide
theorem witness_EncodeOfDecodeIsTheWords : decode ⟨.operation, [0x41, 0xEB, 0x01]⟩ = .ok (.pushByte 0xEB true) := by decide
theorem witness_PackedFrameHasOffsetZeroOnTop : 7 < a1.length := by decide
theorem witness_DecimalConversionIsExactOnBinary32 : binary32Value 0xC5BD1000 = .finite (-(6050 * 2 ^ 149)) := by decide

end Sys2Proof.Tests
end

/-! PROOFS. The stateless units, big-endian fields, and the invariant of a step. -/

namespace Sys2Proof

/-! ### Big-endian fields (R8) -/

/-- A byte appended at the low end of a word multiplies the word by 256. -/
theorem toNat_append_byte {n : Nat} (v : BitVec n) (b : Byte) :
    (v ++ b).toNat = v.toNat * 256 + b.toNat := by
  rw [BitVec.toNat_append, ← Nat.shiftLeft_add_eq_or_of_lt b.isLt, Nat.shiftLeft_eq]

/-- A byte cut out of a word is the word's value divided by the weight of that byte. -/
theorem extractByte_eq_ofNat {n : Nat} (v : BitVec n) (k : Nat) :
    v.extractLsb' k 8 = BitVec.ofNat 8 (v.toNat / 2 ^ k) := by
  rw [← Nat.shiftRight_eq_div_pow]
  rfl

theorem be16_toNat (s : List Byte) (o : Nat) :
    (be16 s o).toNat = (byteAt s o).toNat * 256 + (byteAt s (o + 1)).toNat :=
  toNat_append_byte _ _

theorem be32_toNat (s : List Byte) (o : Nat) :
    (be32 s o).toNat =
      (byteAt s o).toNat * 2 ^ 24 + (byteAt s (o + 1)).toNat * 2 ^ 16 + (byteAt s (o + 2)).toNat * 2 ^ 8 +
        (byteAt s (o + 3)).toNat := by
  rw [be32, toNat_append_byte, toNat_append_byte, toNat_append_byte]
  ring

theorem bytesBe32_eq_ofNat (v : Word) : bytesBe32 v =
    [BitVec.ofNat 8 (v.toNat / 2 ^ 24), BitVec.ofNat 8 (v.toNat / 2 ^ 16), BitVec.ofNat 8 (v.toNat / 2 ^ 8),
      BitVec.ofNat 8 v.toNat] := by
  simp only [bytesBe32, extractByte_eq_ofNat, pow_zero, Nat.div_one]

/-- Settles O15: the reads by Horner's scheme, the write byte by byte. -/
theorem fieldsAreBigEndian : Obligations.FieldsAreBigEndian :=
  ⟨be16_toNat, be32_toNat, bytesBe32_eq_ofNat⟩

/-! ### The frame of a decoded record (R160) -/

/-- A sequence is its bytes read one after another. -/
theorem map_byteAt_range (f : List Byte) : (List.range f.length).map (byteAt f) = f := by
  apply List.ext_getElem
  · simp
  · intro i _ hi
    simp [byteAt, hi]

/-- The record of 32 bytes still holds all of them, each in its place (R160). -/
theorem telemetryRecord_frame (f : List Byte) (h : f.length = 32) : (telemetryRecord f).frame = f := by
  have hbytes : (telemetryRecord f).frame = (List.range 32).map (byteAt f) := by
    simp only [telemetryRecord, telemetryFields, TlmRecord.frame, TlmFields.bytes, be32, be16, bytesBe32_append,
      bytesBe16_append]
    rfl
  rw [hbytes, ← h, map_byteAt_range]

/-! ### Command frames (R60 to R63) -/

/-- The command frame's checksum is computed over the bytes that VALIDATE sums (R63, R102). -/
theorem frameValid_commandFrame (k : Kind) (v : Word) : frameValid (commandFrame k v) = true :=
  beq_self_eq_true _

/-! ### Parts of a byte sequence -/

theorem byteAt_take (b : List Byte) (n i : Nat) (h : i < n) : byteAt (b.take n) i = byteAt b i := by
  simp [byteAt, List.getD_eq_getElem?_getD, h]

end Sys2Proof

namespace Sys2Proof.Machine

/-! ### The stateless units (R2) -/

/-- A stateless operation either returns the same result from every state, changing nothing else, or is refused in
every state, for the same reason. -/
theorem exec_stateless_uniform (i : Instr) (hi : Instr.stateless i = true) :
    (∃ r, ∀ s, exec i s = .next { s with result := some r }) ∨ ∃ x, ∀ s, exec i s = .refused x := by
  cases i with
  | encPoll v => exact .inl ⟨_, exec_encInstr .poll v⟩
  | encCurrent v => exact .inl ⟨_, exec_encInstr .current v⟩
  | encSpeed v => exact .inl ⟨_, exec_encInstr .speed v⟩
  | encTorque v => exact .inl ⟨_, exec_encInstr .torque v⟩
  | cksum f =>
    by_cases hl : legalFrameLength f.length = true
    · exact .inl ⟨_, fun s => if_pos hl⟩
    · exact .inr ⟨_, fun s => if_neg hl⟩
  | validate f =>
    by_cases hl : legalFrameLength f.length = true
    · exact .inl ⟨_, fun s => if_pos hl⟩
    · exact .inr ⟨_, fun s => if_neg hl⟩
  | decodeTlm f =>
    by_cases hl : f.length = lenTlm
    · exact .inl ⟨_, fun s => (if_pos hl).trans (s.complete_of_ne _ (decodeTelemetry_ne_reserved f))⟩
    · exact .inr ⟨_, fun s => if_neg hl⟩
  | push | pushByte | reset | cmdCurrent | cmdSpeed | cmdTorque | cmdPoll | rspTlm | rspAck =>
    exact absurd hi Bool.false_ne_true

/-- Settles O43. -/
theorem statelessOperationsReadAndWriteNoState : Obligations.StatelessOperationsReadAndWriteNoState := by
  intro i s u t hi h
  rcases exec_stateless_uniform i hi with ⟨r, hr⟩ | ⟨x, hx⟩
  · obtain rfl := Host.Outcome.next.inj ((hr s).symm.trans h)
    exact ⟨rfl, hr u⟩
  · exact absurd ((hx s).symm.trans h) (by simp)

/-! ### What a scan can do -/

/-- A candidate of the scan: marker-led bytes of the length their offset 2 selects (R184, R188). -/
def Candidate (f : List Byte) : Prop :=
  f.take 2 = [marker0, marker1] ∧ f.length = frameLength (byteAt f 2)

theorem Candidate.length_pos {f : List Byte} (h : Candidate f) : 0 < f.length :=
  h.2 ▸ frameLength_pos _

theorem Candidate.length_eq_32_iff {f : List Byte} (h : Candidate f) : f.length = 32 ↔ byteAt f 2 = discTlm := by
  rw [h.2, frameLength]
  split <;> simp [*, lenTlm, lenAck]

/-- The bytes from the marker on begin `EB 90` (R184). -/
theorem findMarker_take_two : ∀ (b : List Byte) (p : Nat), findMarker b = some p →
    (b.drop p).take 2 = [marker0, marker1]
  | [], _, h => by simp [findMarker] at h
  | [_], _, h => by simp [findMarker] at h
  | x :: y :: rest, p, h => by
    unfold findMarker at h
    split at h
    · next hm => obtain rfl := Option.some.inj h; simp [hm]
    · obtain ⟨q, hq, rfl⟩ := Option.map_eq_some_iff.mp h
      simpa using findMarker_take_two (y :: rest) q hq

/-- The trim leaves nothing or one `EB` (R183). -/
theorem bufShape_trimNoMarker (b : List Byte) : BufShape (trimNoMarker b) := by
  unfold trimNoMarker
  split
  · exact .inr (.inl rfl)
  · exact .inl rfl

/-- Marker-led bytes shorter than three, or shorter than their offset 2 selects, are a legal buffer (R21). -/
theorem bufShape_of_incomplete (b : List Byte) (hm : b.take 2 = [marker0, marker1])
    (h : b.length < 3 ∨ b.length < frameLength (byteAt b 2)) : BufShape b := by
  by_cases h3 : b.length < 3
  · exact .inr (.inr (.inl ((List.take_of_length_le (by omega)).symm.trans hm)))
  · exact .inr (.inr (.inr ⟨hm, by omega, h.resolve_left h3⟩))

/-- Marker-led bytes cut at the length their offset 2 selects are a candidate. -/
theorem candidate_take (b : List Byte) (hm : b.take 2 = [marker0, marker1])
    (h : frameLength (byteAt b 2) ≤ b.length) : Candidate (b.take (frameLength (byteAt b 2))) := by
  have hlen : 8 ≤ frameLength (byteAt b 2) := by
    rcases frameLength_cases (byteAt b 2) with h | h <;> omega
  constructor
  · rw [List.take_take, Nat.min_eq_left (by omega), hm]
  · rw [byteAt_take b _ 2 (by omega), List.length_take_of_le h]

/-- All that a scan can do: it waits with a buffer of a legal shape, or it judges the first candidate and scans what
follows it. -/
theorem scan_cases (buf : List Byte) (prev : Option TlmRecord) :
    (∃ b, BufShape b ∧ scan buf prev = ⟨[], b, prev⟩) ∨
      ∃ f rest, Candidate f ∧ f ++ rest <:+ buf ∧ scan buf prev =
        ⟨(judge f prev).1 :: (scan rest (judge f prev).2).events, (scan rest (judge f prev).2).buf,
          (scan rest (judge f prev).2).prev⟩ := by
  rw [scan_eq]
  cases hp : findMarker buf with
  | none => exact .inl ⟨_, bufShape_trimNoMarker buf, rfl⟩
  | some p =>
    have hm := findMarker_take_two buf p hp
    by_cases h3 : (buf.drop p).length < 3
    · exact .inl ⟨_, bufShape_of_incomplete _ hm (.inl h3), if_pos h3⟩
    · by_cases hl : (buf.drop p).length < frameLength (byteAt (buf.drop p) 2)
      · exact .inl ⟨_, bufShape_of_incomplete _ hm (.inr hl), (if_neg h3).trans (if_pos hl)⟩
      · refine .inr ⟨_, _, candidate_take _ hm (Nat.le_of_not_lt hl), ?_, (if_neg h3).trans (if_neg hl)⟩
        rw [List.take_append_drop]
        exact List.drop_suffix p buf

/-! ### Soundness of what the resynchronizer leaves (R161, R196 to R198) -/

/-- The previous-record register holds no record or a sound one. -/
def PrevSound (prev : Option TlmRecord) : Prop := ∀ r, prev = some r → RecordSound r

/-- What a scan leaves keeps the invariant: the buffer's shape, the previous record and the events. -/
structure ScanSound (r : ScanResult) : Prop where
  buf : BufShape r.buf
  prev : PrevSound r.prev
  events : ∀ e ∈ r.events, EventSound e

/-- The record of a valid 32-byte candidate is sound: its header is `EB 90 DD`, and its frame is the candidate. -/
theorem recordSound_telemetryRecord (f : List Byte) (hc : Candidate f) (hl : f.length = 32)
    (hv : frameValid f = true) : RecordSound (telemetryRecord f) := by
  refine ⟨?_, by rw [telemetryRecord_frame f hl, hv]⟩
  have h0 : byteAt f 0 = marker0 := by rw [← byteAt_take f 2 0 (by decide), hc.1]; rfl
  have h1 : byteAt f 1 = marker1 := by rw [← byteAt_take f 2 1 (by decide), hc.1]; rfl
  simp only [telemetryRecord, h0, h1, hc.length_eq_32_iff.mp hl]

/-- Judging a candidate gives a sound event and leaves a sound previous record. -/
theorem judge_sound (f : List Byte) (prev : Option TlmRecord) (hc : Candidate f) (hprev : PrevSound prev) :
    EventSound (judge f prev).1 ∧ PrevSound (judge f prev).2 := by
  rcases judge_cases f prev with ⟨hv, hj⟩ | ⟨hv, hl, hj⟩ | ⟨hv, hl, hj⟩
  · rw [hj]
    exact ⟨⟨hc.1, hc.2, hv⟩, hprev⟩
  · have hcur := recordSound_telemetryRecord f hc hl hv
    rw [hj]
    refine ⟨⟨hcur, ?_⟩, fun r hr => Option.some.inj hr ▸ hcur⟩
    cases prev with
    | none => exact hcur
    | some q => exact hprev q rfl
  · have hl8 : f.length = lenAck := (hc.2 ▸ frameLength_cases (byteAt f 2)).resolve_right hl
    rw [hj]
    exact ⟨⟨hc.1, hl8, mt hc.length_eq_32_iff.mpr hl, hv⟩, hprev⟩

/-- A scan of any bytes, with a sound previous record, leaves a sound result. -/
theorem scan_sound (buf : List Byte) (prev : Option TlmRecord) (hprev : PrevSound prev) :
    ScanSound (scan buf prev) := by
  induction hn : buf.length using Nat.strong_induction_on generalizing buf prev with
  | _ n ih =>
    rcases scan_cases buf prev with ⟨b, hb, hs⟩ | ⟨f, rest, hc, hsuffix, hs⟩
    · rw [hs]
      exact ⟨hb, hprev, by simp⟩
    · obtain ⟨hevent, hnext⟩ := judge_sound f prev hc hprev
      have hshorter : rest.length < n := by
        have hle := hsuffix.length_le
        have hpos := hc.length_pos
        rw [List.length_append] at hle
        omega
      obtain ⟨hbuf, hlast, hevents⟩ := ih rest.length hshorter rest _ hnext rfl
      rw [hs]
      exact ⟨hbuf, hlast, List.forall_mem_cons.mpr ⟨hevent, hevents⟩⟩

/-! ### Soundness of results -/

/-- What ENC returns is a valid command frame or `OutOfRange` (R131, R234). -/
theorem resultSound_encodeCommand (k : Kind) (v : Word) : ResultSound (encodeCommand k v) := by
  rcases encodeCommand_cases k v with ⟨_, h⟩ | ⟨_, h⟩ <;> rw [h]
  · exact ⟨rfl, rfl, ⟨k, rfl⟩, frameValid_commandFrame k v⟩
  · simp [ResultSound]

/-- What DECODE_TLM returns is the record of a valid frame or `ChecksumError` (R161, R234). -/
theorem resultSound_decodeTelemetry (f : List Byte) (hl : f.length = 32) : ResultSound (decodeTelemetry f) := by
  rcases decodeTelemetry_cases f with ⟨hv, h⟩ | ⟨_, h⟩ <;> rw [h]
  · exact (congrArg frameValid (telemetryRecord_frame f hl)).trans hv
  · simp [ResultSound]

theorem StatelessResult.resultSound {i : Instr} {r : Result} (h : StatelessResult i r) : ResultSound r := by
  cases h with
  | enc k v => exact resultSound_encodeCommand k v
  | cksum f => trivial
  | validate f => trivial
  | decodeTlm f hl => exact resultSound_decodeTelemetry f hl

/-! ### The invariant -/

/-- The instruction of a step starts from the state without its issue, of which the invariant does not speak. -/
theorem Inv.withInput {s : State} (h : Inv s) (rest : List Issue) : Inv { s with input := rest } := h

theorem exec_keeps_inv (i : Instr) (s t : State) (hinv : Inv s) (h : exec i s = .next t) : Inv t := by
  obtain ⟨hchunk, hring, hbuf, hprev, -⟩ := hinv
  rcases exec_cases i s t h with ⟨r, hr, rfl⟩ | ⟨-, rfl⟩ | ⟨sop, bytes, -, harrive⟩
  · exact ⟨hchunk, hring, hbuf, hprev, fun _ he => Option.some.inj he ▸ hr.resultSound⟩
  · exact ⟨hchunk, hring, .inl rfl, by simp, fun _ he => Option.some.inj he ▸ trivial⟩
  · have hs : ScanSound (receive sop bytes s.buf s.prev) := scan_sound _ _ hprev
    rw [State.arrive_eq] at harrive
    obtain rfl := Host.Outcome.next.inj harrive
    exact ⟨hchunk, hring, hs.buf, hs.prev, fun _ he => Option.some.inj he ▸ hs.events⟩

/-- Settles O50: an idle step changes nothing, and any other is an instruction, which keeps the invariant. -/
theorem stepKeepsTheInvariant : Obligations.StepKeepsTheInvariant := by
  intro s t hinv h
  rcases step_cases s t h with ⟨-, rfl⟩ | ⟨_, rest, i, -, -, hexec⟩
  · exact hinv
  · exact exec_keeps_inv i _ t (hinv.withInput rest) hexec

end Sys2Proof.Machine

/-! PROOFS. What an operation leaves in the buffer, in the previous record and in the parameters; reset; fleets. -/

namespace Sys2Proof.Machine

/-! ### Induction over the passes of a scan (R180) -/

/-- What holds of every wait with a legal buffer, and of a pass that judges a candidate where it holds of the scan
that follows, holds of every scan. -/
theorem scan_induction {motive : Option TlmRecord → ScanResult → Prop}
    (wait : ∀ prev b, BufShape b → motive prev ⟨[], b, prev⟩)
    (pass : ∀ prev f r, motive (judge f prev).2 r → motive prev ⟨(judge f prev).1 :: r.events, r.buf, r.prev⟩)
    (buf : List Byte) (prev : Option TlmRecord) : motive prev (scan buf prev) := by
  induction hn : buf.length using Nat.strong_induction_on generalizing buf prev with
  | _ n ih =>
    rcases scan_cases buf prev with ⟨b, hb, hs⟩ | ⟨f, rest, hc, hsuffix, hs⟩
    · rw [hs]
      exact wait prev b hb
    · have hshorter : rest.length < n := by
        have hle := hsuffix.length_le
        have hpos := hc.length_pos
        rw [List.length_append] at hle
        omega
      rw [hs]
      exact pass prev f _ (ih rest.length hshorter rest _ rfl)

/-! ### The buffer (R21, R29) -/

/-- A scan leaves a buffer of a legal shape, whatever the previous record. -/
theorem bufShape_scan (buf : List Byte) (prev : Option TlmRecord) : BufShape (scan buf prev).buf :=
  scan_induction (motive := fun _ r => BufShape r.buf) (fun _ _ hb => hb) (fun _ _ _ hr => hr) buf prev

/-- A legal buffer is shorter than the longest frame (R29). -/
theorem BufShape.length_le {b : List Byte} (h : BufShape b) : b.length ≤ 31 := by
  rcases h with rfl | rfl | rfl | ⟨-, -, hlt⟩
  · decide
  · decide
  · decide
  · rcases frameLength_cases (byteAt b 2) with hl | hl <;> omega

theorem exec_keeps_bufShape (i : Instr) (s t : State) (hs : BufShape s.buf) (h : exec i s = .next t) :
    BufShape t.buf := by
  rcases exec_cases i s t h with ⟨_, -, rfl⟩ | ⟨-, rfl⟩ | ⟨sop, bytes, -, harrive⟩
  · exact hs
  · exact .inl rfl
  · rw [State.arrive_eq] at harrive
    obtain rfl := Host.Outcome.next.inj harrive
    exact bufShape_scan _ _

/-- Settles O24: the buffer has a legal shape before and after, and a PUSH that completes has a legal chunk. -/
theorem bufferNeverOverflows : Obligations.BufferNeverOverflows := by
  intro i s t hs h
  refine ⟨(exec_keeps_bufShape i s t hs h).length_le, ?_⟩
  rintro c rfl
  have hbuf := hs.length_le
  obtain ⟨-, hchunk, -⟩ := s.pushChunk_next t c h
  rw [List.length_append, Params.bufCap]
  omega

/-! ### The previous-record register (R25) -/

/-- The last record of a list of events is that of its tail, or else that of its head. -/
theorem lastRecord_cons (e : Event) (es : List Event) : lastRecord (e :: es) = (lastRecord es).or (lastRecord [e]) := by
  cases e with
  | tlm cur prev => cases hr : lastRecord es <;> simp [lastRecord, hr]
  | ack f => simp [lastRecord]
  | ckerr f => simp [lastRecord]

/-- Judging a candidate writes the previous record with a TLM event's record, and not otherwise. -/
theorem judge_prev (f : List Byte) (prev : Option TlmRecord) :
    (judge f prev).2 = (lastRecord [(judge f prev).1]).or prev := by
  rcases judge_cases f prev with ⟨-, hj⟩ | ⟨-, -, hj⟩ | ⟨-, -, hj⟩ <;> rw [hj] <;> rfl

/-- A scan leaves the record of its last TLM event, or the previous record as it was. -/
theorem scan_prev (buf : List Byte) (prev : Option TlmRecord) :
    (scan buf prev).prev = (lastRecord (scan buf prev).events).or prev := by
  refine scan_induction (motive := fun prev r => r.prev = (lastRecord r.events).or prev) ?_ ?_ buf prev
  · intro prev b _
    rfl
  · intro prev f r hr
    calc r.prev = (lastRecord r.events).or (judge f prev).2 := hr
      _ = ((lastRecord r.events).or (lastRecord [(judge f prev).1])).or prev := by rw [judge_prev, Option.or_assoc]
      _ = (lastRecord ((judge f prev).1 :: r.events)).or prev := by rw [lastRecord_cons _ r.events]

/-- A result of the stateless units holds no events. -/
theorem StatelessResult.emitted_eq_nil {i : Instr} {r : Result} (h : StatelessResult i r) (s : State) :
    ({ s with result := some r } : State).emitted = [] := by
  cases h with
  | enc k v => rcases encodeCommand_cases k v with ⟨_, h⟩ | ⟨_, h⟩ <;> rw [h] <;> rfl
  | cksum f => rfl
  | validate f => rfl
  | decodeTlm f hl => rcases decodeTelemetry_cases f with ⟨_, h⟩ | ⟨_, h⟩ <;> rw [h] <;> rfl

/-- After an operation other than RESET the register holds the last record emitted, or what it held. -/
theorem exec_prev (i : Instr) (s t : State) (hi : i ≠ .reset) (h : exec i s = .next t) :
    t.prev = (lastRecord t.emitted).or s.prev := by
  rcases exec_cases i s t h with ⟨r, hr, rfl⟩ | ⟨hreset, -⟩ | ⟨sop, bytes, -, harrive⟩
  · rw [hr.emitted_eq_nil s]
    rfl
  · exact absurd hreset hi
  · rw [State.arrive_eq] at harrive
    obtain rfl := Host.Outcome.next.inj harrive
    exact scan_prev _ _

/-- Settles O28. -/
theorem onlyTelemetryAndResetWritePrev : Obligations.OnlyTelemetryAndResetWritePrev := by
  intro i s t h
  constructor
  · rintro rfl
    obtain rfl := Host.Outcome.next.inj h
    rfl
  · intro hi
    rw [exec_prev i s t hi h]
    cases lastRecord t.emitted <;> rfl

/-! ### The parameters (R31) -/

theorem exec_params (i : Instr) (s t : State) (h : exec i s = .next t) : t.params = s.params := by
  rcases exec_cases i s t h with ⟨_, -, rfl⟩ | ⟨-, rfl⟩ | ⟨sop, bytes, -, harrive⟩
  · rfl
  · rfl
  · rw [State.arrive_eq] at harrive
    obtain rfl := Host.Outcome.next.inj harrive
    rfl

/-- Settles O44. -/
theorem stepNeverWritesParameters : Obligations.StepNeverWritesParameters := by
  intro s t h
  rcases step_cases s t h with ⟨-, rfl⟩ | ⟨_, rest, i, -, -, hexec⟩
  · rfl
  · exact exec_params i { s with input := rest } t hexec

/-! ### Several FCRs (R33) -/

/-- A member that steps has its own next state put in its place. -/
theorem Fleet.stepAt_eq_set (fleet : Fleet) (k : Nat) (s t : State) (hk : fleet[k]? = some s) (h : step s = .next t) :
    fleet.stepAt k = some (fleet.set k t) := by
  simp only [Fleet.stepAt, hk, h]

/-- Settles O45. -/
theorem fleetMembersAreIndependent : Obligations.FleetMembersAreIndependent := by
  intro fleet k s t hk h
  obtain ⟨hlt, -⟩ := List.getElem?_eq_some_iff.mp hk
  exact ⟨_, Fleet.stepAt_eq_set fleet k s t hk h, List.getElem?_set_self hlt,
    fun j hj => List.getElem?_set_ne (Ne.symm hj)⟩

/-! ### Reset (R32, R261) -/

/-- Settles O51: the builder's parameters are at least 1, the buffer is empty, and there is no record or result. -/
theorem resetMeetsTheInvariant : Obligations.ResetMeetsTheInvariant :=
  ⟨Config.one_le_chunkMax, Config.one_le_ringCap, .inl rfl, by simp, by simp⟩

end Sys2Proof.Machine

/-! PROOFS. Decoding what an instruction encodes to, and the order in which issued operations are performed. -/

namespace Sys2Proof

/-! ### Operations of the operation port (R70, R73; log 2) -/

theorem opOfTag_tag (op : Op) : opOfTag op.tag = some op := by
  cases op <;> rfl

/-- An issue that begins with an operation's tag is decoded by that operation's operand alone. -/
theorem decode_issueOp (op : Op) (operand : List Byte) : decode (issueOp op operand) = decodeOperand op operand := by
  simp only [decode, issueOp, decodeOperation, opOfTag_tag]

theorem decodeValue_bytesBe32 (v : Word) : decodeValue (bytesBe32 v) = .ok v := by
  rw [decodeValue, if_pos (bytesBe32_length v), be32_bytesBe32]

/-- The start bit is read from its own byte (log 2). -/
theorem decodeOperand_pushByte (b : Byte) (sop : Bool) :
    decodeOperand .pushByte [b, if sop then 1 else 0] = .ok (.pushByte b sop) := by
  cases sop <;> rfl

/-! ### Frames on the link (R60 to R67; log 4) -/

/-- The payload of an eight-byte frame is read from offset 3 as it was written. -/
theorem be32_frame8 (code : Byte) (p : Word) (x : Byte) : be32 (frame8 code p x) 3 = p :=
  be32_bytesBe32 p

theorem be16_bytesBe16 (v : Half) : be16 (bytesBe16 v) 0 = v := by
  apply BitVec.eq_of_toNat_eq
  have hv := v.isLt
  rw [be16_toNat]
  simp [bytesBe16, byteAt, Nat.shiftRight_eq_div_pow]
  omega

/-- The fields of a telemetry frame are read, each at its offset, as they were written. -/
theorem telemetryFields_frame (t : TlmFields) : telemetryFields t.frame = t := by
  have hcontrol : be32 t.frame 4 = t.controlTarget := be32_bytesBe32 _
  have hspeed : be32 t.frame 8 = t.speedFeedback := be32_bytesBe32 _
  have hcurrent : be32 t.frame 12 = t.currentFeedback := be32_bytesBe32 _
  have hacceleration : be32 t.frame 16 = t.accelerationFeedback := be32_bytesBe32 _
  have hmotherboard : be16 t.frame 23 = t.motherboardCurrent := be16_bytesBe16 _
  rw [telemetryFields, hcontrol, hspeed, hcurrent, hacceleration, hmotherboard]
  rfl

theorem decodeCommandFrame_current (p : Word) (x : Byte) :
    decodeCommandFrame (frame8 Kind.current.code p x) = .cmdCurrent p x :=
  congrArg (Instr.cmdCurrent · x) (be32_frame8 Kind.current.code p x)

theorem decodeCommandFrame_speed (p : Word) (x : Byte) :
    decodeCommandFrame (frame8 Kind.speed.code p x) = .cmdSpeed p x :=
  congrArg (Instr.cmdSpeed · x) (be32_frame8 Kind.speed.code p x)

theorem decodeCommandFrame_torque (p : Word) (x : Byte) :
    decodeCommandFrame (frame8 Kind.torque.code p x) = .cmdTorque p x :=
  congrArg (Instr.cmdTorque · x) (be32_frame8 Kind.torque.code p x)

theorem decodeResponseFrame_frame (t : TlmFields) : decodeResponseFrame t.frame = .rspTlm t :=
  congrArg Instr.rspTlm (telemetryFields_frame t)

/-- Eight marker-led bytes are an acknowledgment where offset 2 does not announce telemetry (R66, R67). -/
theorem decodeResponseFrame_frame8 (d : Byte) (p : Word) (x : Byte) (hd : d ≠ discTlm) :
    decodeResponseFrame (frame8 d p x) = .rspAck d p x := by
  have hdisc : byteAt (frame8 d p x) 2 = d := rfl
  have hframe : beginsWithMarker (frame8 d p x) = true ∧ (frame8 d p x).length = frameLength d :=
    ⟨rfl, (if_neg hd).symm⟩
  rw [decodeResponseFrame, hdisc, if_pos hframe, if_neg hd, be32_frame8]
  rfl

/-- With the telemetry discriminator eight bytes are too short for a frame, and arrive as bytes (R67, R187). -/
theorem decodeResponseFrame_frame8_discTlm (p : Word) (x : Byte) :
    decodeResponseFrame (frame8 discTlm p x) = .push (frame8 discTlm p x) := rfl

/-! ### Every instruction -/

/-- Decoding gives back every instruction but an acknowledgment with `DD` at offset 2, which is none (R66). -/
theorem decode_encode (i : Instr) (hi : ∀ p x, i ≠ .rspAck discTlm p x) : decode (encode i) = .ok i := by
  cases i with
  | encPoll v | encCurrent v | encSpeed v | encTorque v =>
    rw [encode, decode_issueOp, decodeOperand, decodeValue_bytesBe32]
    rfl
  | cksum f | validate f | decodeTlm f | push f => rfl
  | pushByte b sop => exact (decode_issueOp _ _).trans (decodeOperand_pushByte b sop)
  | reset => rfl
  | cmdCurrent p x => exact congrArg Except.ok (decodeCommandFrame_current p x)
  | cmdSpeed p x => exact congrArg Except.ok (decodeCommandFrame_speed p x)
  | cmdTorque p x => exact congrArg Except.ok (decodeCommandFrame_torque p x)
  | cmdPoll => rfl
  | rspTlm t => exact congrArg Except.ok (decodeResponseFrame_frame t)
  | rspAck d p x =>
    have hd : d ≠ discTlm := fun hd => hi p x (hd ▸ rfl)
    exact congrArg Except.ok (decodeResponseFrame_frame8 d p x hd)

/-- The words of an acknowledgment with `DD` at offset 2 decode to PUSH of them (log 4). -/
theorem decode_encode_rspAck_discTlm (p : Word) (x : Byte) :
    decode (encode (.rspAck discTlm p x)) = .ok (.push (frame8 discTlm p x)) :=
  congrArg Except.ok (decodeResponseFrame_frame8_discTlm p x)

end Sys2Proof

namespace Sys2Proof.Machine

/-! ### A step by its oldest issue (R49; log 1) -/

theorem step_of_decode_ok (s : State) (w : Issue) (rest : List Issue) (i : Instr) (hs : s.input = w :: rest)
    (hi : decode w = .ok i) : step s = exec i { s with input := rest } := by
  simp only [step, s.takeIssue_cons w rest hs, hi]

theorem step_of_decode_error (s : State) (w : Issue) (rest : List Issue) (e : DecodeError) (hs : s.input = w :: rest)
    (he : decode w = .error e) : step s = .refused (refusalOf e) := by
  simp only [step, s.takeIssue_cons w rest hs, he]

/-- Settles O47: the refusal is the one that names the decoder's error. -/
theorem stepRunsTheDecodedInstruction : Obligations.StepRunsTheDecodedInstruction := by
  intro s w rest hs
  exact ⟨fun i hi => step_of_decode_ok s w rest i hs hi, fun e he => ⟨_, step_of_decode_error s w rest e hs he⟩⟩

/-- What an instruction encodes to decodes to an instruction that does the same, itself but for an acknowledgment
with `DD` at offset 2, whose bytes PUSH takes (log 4). -/
theorem decode_encode_exec (i : Instr) : ∃ j, decode (encode i) = .ok j ∧ exec j = exec i := by
  by_cases hi : ∃ p x, i = .rspAck discTlm p x
  · obtain ⟨p, x, rfl⟩ := hi
    exact ⟨_, decode_encode_rspAck_discTlm p x, rfl⟩
  · exact ⟨i, decode_encode i fun p x h => hi ⟨p, x, h⟩, rfl⟩

/-- On a state with nothing issued, the first of the instructions issued is the oldest. -/
theorem State.issue_cons_input (s : State) (i : Instr) (is : List Instr) (hs : s.input = []) :
    (s.issue (i :: is)).input = encode i :: (s.issue is).input := by
  simp [hs]

/-- Settles O49. -/
theorem issuedOperationsRunInOrder : Obligations.IssuedOperationsRunInOrder := by
  intro i is s hs _
  obtain ⟨j, hj, hexec⟩ := decode_encode_exec i
  calc step (s.issue (i :: is)) = exec j (s.issue is) :=
        step_of_decode_ok _ _ _ j (s.issue_cons_input i is hs) hj
    _ = exec i (s.issue is) := congrFun hexec _

end Sys2Proof.Machine

/-! PROOFS. Encoding what an issue decodes to, bytes on a link, and where an instruction completes. -/

namespace Sys2Proof

/-! ### Decoding after encoding (R60 to R73; logs 2 and 4) -/

/-- Settles O52: the one form left out is an acknowledgment with the telemetry discriminator. -/
theorem decodeOfEncodeIsTheInstruction : Obligations.DecodeOfEncodeIsTheInstruction :=
  ⟨fun i hi => decode_encode i fun p x h => hi discTlm p x h rfl, decode_encode_rspAck_discTlm⟩

/-- The words of an instruction, however they are written, decode to it. -/
theorem decode_of_encode_eq {i : Instr} {w : Issue} (hw : encode i = w) (hi : ∀ p x, i ≠ .rspAck discTlm p x) :
    decode w = .ok i :=
  hw ▸ decode_encode i hi

/-- Settles O54: each of the words is the encoding of its instruction. -/
theorem specWordsDecode : Obligations.SpecWordsDecode := by
  refine ⟨?_, ?_, ?_, ?_, ?_, ?_, ?_⟩ <;> exact decode_of_encode_eq (by decide) (by simp [discTlm])

/-! ### Operations of the operation port (R70, R72; log 2) -/

/-- An operation is selected by its own tag alone. -/
theorem tag_of_opOfTag {tag : Byte} {op : Op} (h : opOfTag tag = some op) : op.tag = tag := by
  unfold opOfTag at h
  split_ifs at h <;> cases h <;> exact Eq.symm ‹_›

/-- The tags of R70. -/
theorem tag_mem (op : Op) : op.tag ∈ ([0x10, 0x11, 0x12, 0x13, 0x20, 0x21, 0x30, 0x40, 0x41, 0xF0] : List Byte) := by
  cases op <;> decide

/-- A tag of none of the operations is refused by the decoder, whatever its operand (R72). -/
theorem decodeOperation_illegalTag (tag : Byte) (operand : List Byte) (h : ∀ op : Op, op.tag ≠ tag) :
    decodeOperation (tag :: operand) = .error (.illegalOp tag) := by
  cases ho : opOfTag tag with
  | none => simp only [decodeOperation, ho]
  | some op => exact absurd (tag_of_opOfTag ho) (h op)

/-- Reading a value succeeds only on the four bytes of that value. -/
theorem bytesBe32_of_decodeValue {bytes : List Byte} {v : Word} (h : decodeValue bytes = .ok v) :
    bytesBe32 v = bytes := by
  unfold decodeValue at h
  split at h
  · next hl =>
    obtain rfl := Except.ok.inj h
    match bytes, hl with
    | [a, b, c, d], _ => exact bytesBe32_append a b c d
  · cases h

/-- The start bit's byte is 1 for true and 0 for false (log 2). -/
theorem byte_of_decodeSop {b : Byte} {sop : Bool} (h : decodeSop b = .ok sop) : (if sop then 1 else 0) = b := by
  unfold decodeSop at h
  split_ifs at h with h0 h1 <;> cases h
  · exact h0.symm
  · exact h1.symm

/-- Where mapping over a result succeeds, the result was a success. -/
theorem except_of_map_eq_ok {ε α β : Type} {f : α → β} {x : Except ε α} {y : β} (h : x.map f = .ok y) :
    ∃ a, x = .ok a ∧ f a = y := by
  cases x with
  | error e => cases h
  | ok a => exact ⟨a, rfl, Except.ok.inj h⟩

/-- An operand that is read is the operand of the instruction's words. -/
theorem encode_of_decodeOperand {op : Op} {bytes : List Byte} {i : Instr} (h : decodeOperand op bytes = .ok i) :
    encode i = issueOp op bytes := by
  cases op with
  | encPoll | encCurrent | encSpeed | encTorque =>
    obtain ⟨v, hv, rfl⟩ := except_of_map_eq_ok h
    exact congrArg (issueOp _) (bytesBe32_of_decodeValue hv)
  | cksum | validate | decodeTlm | push =>
    obtain rfl := Except.ok.inj h
    rfl
  | pushByte =>
    simp only [decodeOperand] at h
    split at h
    · next hl =>
      obtain ⟨sop, hsop, rfl⟩ := except_of_map_eq_ok h
      match bytes, hl with
      | [a, b], _ => exact congrArg (fun c => issueOp .pushByte [a, c]) (byte_of_decodeSop hsop)
    · cases h
  | reset =>
    simp only [decodeOperand] at h
    split at h
    · next hl =>
      obtain rfl := Except.ok.inj h
      rw [List.length_eq_zero_iff.mp hl, encode]
    · cases h

theorem encode_of_decodeOperation {bytes : List Byte} {i : Instr} (h : decodeOperation bytes = .ok i) :
    encode i = ⟨.operation, bytes⟩ := by
  cases bytes with
  | nil => cases h
  | cons tag operand =>
    cases ho : opOfTag tag with
    | none => simp only [decodeOperation, ho] at h; cases h
    | some op =>
      simp only [decodeOperation, ho] at h
      rw [encode_of_decodeOperand h, issueOp, tag_of_opOfTag ho]

/-! ### Bytes on a link (R60 to R69; log 4) -/

/-- The two marker bytes are the ones in front. -/
theorem beginsWithMarker_iff (f : List Byte) :
    beginsWithMarker f = true ↔ byteAt f 0 = marker0 ∧ byteAt f 1 = marker1 := by
  simp [beginsWithMarker]

/-- Eight marker-led bytes are the frame of their code, payload and checksum (R60, R66). -/
theorem frame8_of_bytes {f : List Byte} (hl : f.length = 8) (hm : beginsWithMarker f = true) :
    frame8 (byteAt f 2) (be32 f 3) (byteAt f 7) = f := by
  obtain ⟨h0, h1⟩ := (beginsWithMarker_iff f).mp hm
  match f, hl with
  | [a, b, c, d, e, g, h, i], _ =>
    obtain rfl : a = marker0 := h0
    obtain rfl : b = marker1 := h1
    exact congrArg (fun body => frameHead c ++ body ++ [i]) (bytesBe32_append d e g h)

/-- Thirty-two bytes that begin `EB 90 DD` are the telemetry frame of their fields (R64). -/
theorem frame_telemetryFields {f : List Byte} (hl : f.length = 32) (hm : beginsWithMarker f = true)
    (hd : byteAt f 2 = discTlm) : (telemetryFields f).frame = f := by
  obtain ⟨h0, h1⟩ := (beginsWithMarker_iff f).mp hm
  calc (telemetryFields f).frame = [byteAt f 0, byteAt f 1, byteAt f 2] ++ (telemetryFields f).bytes := by
        rw [h0, h1, hd]; rfl
    _ = f := telemetryRecord_frame f hl

/-- Host-to-device bytes decode to the instruction whose words they are, or to PUSH of them. -/
theorem decodeCommandFrame_cases (f : List Byte) :
    encode (decodeCommandFrame f) = ⟨.commandLink, f⟩ ∨ decodeCommandFrame f = .push f := by
  unfold decodeCommandFrame
  split
  · next hf =>
    have hframe := frame8_of_bytes hf.1 hf.2
    split_ifs with h1 h2 h3 h4
    · exact .inl (congrArg (Issue.mk .commandLink) (h1 ▸ hframe))
    · exact .inl (congrArg (Issue.mk .commandLink) (h2 ▸ hframe))
    · exact .inl (congrArg (Issue.mk .commandLink) (h3 ▸ hframe))
    · exact .inl (congrArg (Issue.mk .commandLink) h4.symm)
    · exact .inr rfl
  · exact .inr rfl

/-- Device-to-host bytes decode to the instruction whose words they are, or to PUSH of them. -/
theorem decodeResponseFrame_cases (f : List Byte) :
    encode (decodeResponseFrame f) = ⟨.responseLink, f⟩ ∨ decodeResponseFrame f = .push f := by
  unfold decodeResponseFrame
  split
  · next hf =>
    obtain ⟨hm, hl⟩ := hf
    split
    · next hd =>
      rw [hd] at hl
      exact .inl (congrArg (Issue.mk .responseLink) (frame_telemetryFields hl hm hd))
    · next hd =>
      rw [frameLength, if_neg hd] at hl
      exact .inl (congrArg (Issue.mk .responseLink) (frame8_of_bytes hl hm))
  · exact .inr rfl

/-- Bytes on a link always decode, to the instruction whose words they are or to PUSH of them (R68, R204). -/
theorem decode_link_cases (w : Issue) (hw : w.port ≠ .operation) :
    ∃ i, decode w = .ok i ∧ (encode i = w ∨ i = .push w.bytes) := by
  obtain ⟨port, bytes⟩ := w
  cases port with
  | operation => exact absurd rfl hw
  | commandLink => exact ⟨_, rfl, decodeCommandFrame_cases bytes⟩
  | responseLink => exact ⟨_, rfl, decodeResponseFrame_cases bytes⟩

/-- Words that decode to PUSH and stand on a link are the words of no instruction but an acknowledgment with the
telemetry discriminator, since any other would be decoded back. -/
theorem rspAck_of_encode_eq_of_decode_push {w : Issue} {c : List Byte} (hw : w.port ≠ .operation)
    (h : decode w = .ok (.push c)) (j : Instr) (hj : encode j = w) : ∃ b x, j = .rspAck discTlm b x := by
  by_contra hne
  have hback := decode_of_encode_eq hj fun b x hjack => hne ⟨b, x, hjack⟩
  obtain rfl : j = .push c := Except.ok.inj (hback.symm.trans h)
  exact hw (hj ▸ rfl)

/-- Settles O53. -/
theorem encodeOfDecodeIsTheWords : Obligations.EncodeOfDecodeIsTheWords := by
  intro w i h
  by_cases hw : w.port = .operation
  · obtain ⟨port, bytes⟩ := w
    obtain rfl : port = .operation := hw
    exact .inl (encode_of_decodeOperation h)
  · obtain ⟨j, hj, hcases⟩ := decode_link_cases w hw
    obtain rfl : j = i := Except.ok.inj (hj.symm.trans h)
    refine hcases.imp_right fun hpush => ⟨hw, hpush, ?_⟩
    exact rspAck_of_encode_eq_of_decode_push hw (hpush ▸ h)

/-! ### A packed frame (R76) -/

/-- A byte after the others stands below them in the packed number. -/
theorem packFrame_append_singleton (f : List Byte) (b : Byte) :
    packFrame (f ++ [b]) = packFrame f * 256 + b.toNat := by
  simp [packFrame]

/-- Settles O55, by induction on the frame from its last byte, the lowest of the number. -/
theorem packedFrameHasOffsetZeroOnTop : Obligations.PackedFrameHasOffsetZeroOnTop := by
  intro f
  induction f using List.reverseRecOn with
  | nil => intro i hi; cases hi
  | append_singleton f b ih =>
    intro i hi
    rw [List.length_append, List.length_singleton] at hi ⊢
    have hb : b.toNat < 256 := b.isLt
    rw [packFrame_append_singleton]
    rcases Nat.lt_succ_iff_lt_or_eq.mp hi with hlt | rfl
    · have hshift : 8 * (f.length + 1 - i - 1) = 8 + 8 * (f.length - i - 1) := by omega
      have hdrop : (packFrame f * 256 + b.toNat) / 2 ^ 8 = packFrame f := by omega
      have hbyte : byteAt (f ++ [b]) i = byteAt f i := by
        rw [byteAt, byteAt, List.getD_append _ _ _ _ hlt]
      rw [hshift, Nat.pow_add, ← Nat.div_div_eq_div_mul, hdrop, ih i hlt, hbyte]
    · have hbyte : byteAt (f ++ [b]) f.length = b := by simp [byteAt]
      rw [hbyte]
      simp
      omega

end Sys2Proof

namespace Sys2Proof.Machine

/-! ### Steps on issues (logs 1 to 4) -/

/-- Settles O40. -/
theorem illegalTagsAreRefused : Obligations.IllegalTagsAreRefused := by
  intro tag operand s rest htag hs
  have hop : ∀ op : Op, op.tag ≠ tag := fun op h => htag (h ▸ tag_mem op)
  exact step_of_decode_error s _ rest _ hs (decodeOperation_illegalTag tag operand hop)

/-- An instruction whose words stand on a link does what PUSH of their bytes does (log 3). -/
theorem exec_eq_push_encode (i : Instr) (hi : (encode i).port ≠ .operation) :
    exec i = exec (.push (encode i).bytes) := by
  cases i with
  | cmdCurrent | cmdSpeed | cmdTorque | cmdPoll | rspTlm | rspAck => rfl
  | encPoll | encCurrent | encSpeed | encTorque | cksum | validate | decodeTlm | push | pushByte | reset =>
    exact absurd rfl hi

/-- Settles O57. -/
theorem linkBytesAlwaysArrive : Obligations.LinkBytesAlwaysArrive := by
  intro s w rest hs hw
  obtain ⟨i, hi, rfl | rfl⟩ := decode_link_cases w hw
  · exact (step_of_decode_ok s _ rest i hs hi).trans (congrFun (exec_eq_push_encode i hw) _)
  · exact step_of_decode_ok s w rest _ hs hi

/-! ### Where an instruction completes (R73, R235; logs 3 and 6) -/

/-- An operation completes where its operand is legal, and is refused where it is not. -/
def CompletesExactlyWhere (legal : Bool) (o : Host.Outcome State Fault Refusal) : Prop :=
  (legal = true → ∃ t, o = .next t) ∧ (legal = false → ∃ r, o = .refused r)

theorem completesExactlyWhere_next (t : State) : CompletesExactlyWhere true (.next t) :=
  ⟨fun _ => ⟨t, rfl⟩, fun h => absurd h.symm Bool.false_ne_true⟩

theorem completesExactlyWhere_refused (r : Refusal) : CompletesExactlyWhere false (.refused r) :=
  ⟨fun h => absurd h Bool.false_ne_true, fun _ => ⟨r, rfl⟩⟩

/-- An operation that checks its operand first, and then completes with any result but the reserved error. -/
theorem completesExactlyWhere_check {legal : Bool} {p : Prop} [Decidable p] (hp : legal = true ↔ p) (s : State)
    {r : Result} (hr : r ≠ .err .responseLengthMismatch) (x : Refusal) :
    CompletesExactlyWhere legal (if p then s.complete r else .refused x) := by
  cases legal with
  | true => rw [if_pos (hp.mp rfl), s.complete_of_ne r hr]; exact completesExactlyWhere_next _
  | false => rw [if_neg (mt hp.mpr Bool.false_ne_true)]; exact completesExactlyWhere_refused x

/-- A chunk arrives where its length is legal (R180, R235). -/
theorem completesExactlyWhere_pushChunk (s : State) (c : List Byte) :
    CompletesExactlyWhere (decide (1 ≤ c.length) && decide (c.length ≤ s.params.chunkMax)) (s.pushChunk c) := by
  rcases s.pushChunk_cases c with ⟨hbad, h⟩ | ⟨h1, h2, h⟩
  · have hlegal : (decide (1 ≤ c.length) && decide (c.length ≤ s.params.chunkMax)) = false := by
      simp only [Bool.and_eq_false_iff, decide_eq_false_iff_not]
      omega
    rw [hlegal, h]
    exact completesExactlyWhere_refused _
  · rw [decide_eq_true h1, decide_eq_true h2, h, s.arrive_eq]
    exact completesExactlyWhere_next _

/-- Settles O41. -/
theorem refusedExactlyWhereIllFormed : Obligations.RefusedExactlyWhereIllFormed := by
  intro i s
  change CompletesExactlyWhere (i.wellFormed s.params) (exec i s)
  cases i with
  | encPoll v => exact exec_encInstr .poll v s ▸ completesExactlyWhere_next _
  | encCurrent v => exact exec_encInstr .current v s ▸ completesExactlyWhere_next _
  | encSpeed v => exact exec_encInstr .speed v s ▸ completesExactlyWhere_next _
  | encTorque v => exact exec_encInstr .torque v s ▸ completesExactlyWhere_next _
  | cksum f => exact completesExactlyWhere_check Iff.rfl s (by simp) _
  | validate f => exact completesExactlyWhere_check Iff.rfl s (by simp) _
  | decodeTlm f => exact completesExactlyWhere_check beq_iff_eq s (decodeTelemetry_ne_reserved f) _
  | pushByte b sop => exact completesExactlyWhere_check Iff.rfl _ (by simp) _
  | reset => exact completesExactlyWhere_next _
  | push c => exact completesExactlyWhere_pushChunk s c
  | cmdCurrent p x => exact completesExactlyWhere_pushChunk s (frame8 Kind.current.code p x)
  | cmdSpeed p x => exact completesExactlyWhere_pushChunk s (frame8 Kind.speed.code p x)
  | cmdTorque p x => exact completesExactlyWhere_pushChunk s (frame8 Kind.torque.code p x)
  | cmdPoll => exact completesExactlyWhere_pushChunk s pollFrame
  | rspTlm t => exact completesExactlyWhere_pushChunk s t.frame
  | rspAck d p x => exact completesExactlyWhere_pushChunk s (frame8 d p x)

/-! ### A frame that arrives as one chunk of its own (R181, R187 to R191; log 3) -/

theorem findMarker_of_take_two (b : List Byte) (h : b.take 2 = [marker0, marker1]) : findMarker b = some 0 := by
  match b, h with
  | x :: y :: rest, h =>
    obtain ⟨rfl, rfl⟩ : x = marker0 ∧ y = marker1 := by simpa using h
    exact if_pos ⟨rfl, rfl⟩

/-- A candidate alone is judged, and nothing is left (R188 to R191). -/
theorem scan_candidate (f : List Byte) (prev : Option TlmRecord) (hf : Candidate f) :
    scan f prev = ⟨[(judge f prev).1], [], (judge f prev).2⟩ := by
  obtain ⟨hm, hl⟩ := hf
  have hlen : 8 ≤ f.length := by rcases frameLength_cases (byteAt f 2) with h | h <;> omega
  rw [scan_eq, findMarker_of_take_two f hm]
  simp only [List.drop_zero, ← hl, List.take_length, List.drop_length, scan_nil]
  rw [if_neg (by omega), if_neg (by omega)]

/-- The start of a longer frame waits (R187). -/
theorem scan_incomplete (f : List Byte) (prev : Option TlmRecord) (hm : f.take 2 = [marker0, marker1])
    (hl : f.length < frameLength (byteAt f 2)) : scan f prev = ⟨[], f, prev⟩ := by
  rw [scan_eq, findMarker_of_take_two f hm]
  simp only [List.drop_zero, if_pos hl, ite_self]

/-- Bytes that begin with the marker are scanned alone, whatever stood in the buffer (R181). -/
theorem receive_of_take_two (f buf : List Byte) (prev : Option TlmRecord) (hm : f.take 2 = [marker0, marker1]) :
    receive true f buf prev = scan f prev := by
  match f, hm with
  | x :: y :: rest, hm =>
    obtain ⟨rfl, rfl⟩ : x = marker0 ∧ y = marker1 := by simpa using hm
    rfl

/-- Eight bytes are valid where the last is the sum of offsets 2 to 6 (R63, R102). -/
theorem frameValid_frame8 (d : Byte) (p : Word) (x : Byte) :
    frameValid (frame8 d p x) = true ↔
      x = d + p.extractLsb' 24 8 + p.extractLsb' 16 8 + p.extractLsb' 8 8 + p.extractLsb' 0 8 := by
  have hsum : frameChecksum (frame8 d p x) =
      d + p.extractLsb' 24 8 + p.extractLsb' 16 8 + p.extractLsb' 8 8 + p.extractLsb' 0 8 := by
    change sumBytes [d, p.extractLsb' 24 8, p.extractLsb' 16 8, p.extractLsb' 8 8, p.extractLsb' 0 8] = _
    simp only [sumBytes, BitVec.add_assoc, BitVec.add_zero, BitVec.ofNat_eq_ofNat]
  rw [← hsum]
  exact beq_iff_eq

/-- An eight-byte candidate is an ACK or a CKERR by its checksum, and leaves the previous record (R189, R191). -/
theorem judge_frame8 (d : Byte) (p : Word) (x : Byte) (prev : Option TlmRecord) :
    judge (frame8 d p x) prev =
      (if x = d + p.extractLsb' 24 8 + p.extractLsb' 16 8 + p.extractLsb' 8 8 + p.extractLsb' 0 8
        then .ack (frame8 d p x) else .ckerr (frame8 d p x), prev) := by
  rcases judge_cases (frame8 d p x) prev with ⟨hv, hj⟩ | ⟨-, hl, -⟩ | ⟨hv, -, hj⟩
  · rw [hj, if_neg (mt (frameValid_frame8 d p x).mpr (by simp [hv]))]
  · cases hl
  · rw [hj, if_pos ((frameValid_frame8 d p x).mp hv)]

/-- RSP.ACK is the scan of its eight bytes alone. -/
theorem exec_rspAck (d : Byte) (p : Word) (x : Byte) (s : State) (hs : 8 ≤ s.params.chunkMax) :
    exec (.rspAck d p x) s = .next { s with
      buf := (scan (frame8 d p x) s.prev).buf
      prev := (scan (frame8 d p x) s.prev).prev
      result := some (.ok (.events (scan (frame8 d p x) s.prev).events)) } := by
  have harrive : exec (.rspAck d p x) s = s.arrive true (frame8 d p x) :=
    s.pushChunk_legal _ (by rw [frame8_length]; decide) (by rw [frame8_length]; exact hs)
  rw [harrive, s.arrive_eq, receive_of_take_two _ _ _ rfl]

/-- Settles O38: eight bytes are a whole candidate but where they begin a telemetry frame. -/
theorem acknowledgmentArrives : Obligations.AcknowledgmentArrives := by
  intro d p x s
  constructor
  · intro hd hs
    have hcandidate : Candidate (frame8 d p x) := ⟨rfl, (if_neg hd).symm⟩
    rw [exec_rspAck d p x s hs, scan_candidate _ _ hcandidate, judge_frame8]
    rfl
  · rintro rfl hs
    have hshort : (frame8 discTlm p x).length < frameLength (byteAt (frame8 discTlm p x) 2) := by
      change 8 < frameLength discTlm
      decide
    change exec (.rspAck discTlm p x) s = _
    rw [exec_rspAck discTlm p x s hs, scan_incomplete (frame8 discTlm p x) s.prev rfl hshort]
    rfl

end Sys2Proof.Machine

/-! PROOFS. The decimal conversion on the values that binary32 holds exactly. -/

namespace Sys2Proof.Machine

/-! ### Rounding what needs none (R74; log 14) -/

/-- A whole quotient is not rounded. -/
theorem roundHalfEven_mul (m d : Nat) (hd : 0 < d) : roundHalfEven (m * d) d = m := by
  simp [roundHalfEven, Nat.mul_div_cancel m hd, hd]

/-- Over a power of two the exponent is that of the numerator, less the power. -/
theorem floorLog2_two_pow (n d : Nat) (hn : n ≠ 0) : floorLog2 n (2 ^ d) = (n.log2 : Int) - d := by
  have hlog : 2 ^ n.log2 ≤ n := Nat.log2_self_le hn
  have hexp : n.log2 + (-((n.log2 : Int) - d)).toNat = d + ((n.log2 : Int) - d).toNat := by omega
  have hle : 2 ^ d * 2 ^ ((n.log2 : Int) - d).toNat ≤ n * 2 ^ (-((n.log2 : Int) - d)).toNat := by
    rw [← Nat.pow_add, ← hexp, Nat.pow_add]
    exact Nat.mul_le_mul_right _ hlog
  simp only [floorLog2, Nat.log2_two_pow, if_neg (Nat.not_lt.mpr hle)]

/-- A significand of 24 bits has its leading bit at bit 23, or is not shifted (R10). -/
theorem log2_significand (m j : Nat) (hm : m < 2 ^ 24) (hj : 2 ^ 23 ≤ m ∨ j = 0) (h0 : m * 2 ^ j ≠ 0) :
    max ((m * 2 ^ j).log2 : Int) 23 = j + 23 := by
  have hupper : (m * 2 ^ j).log2 < j + 24 := by
    rw [Nat.log2_lt h0, Nat.add_comm, Nat.pow_add]
    exact Nat.mul_lt_mul_of_pos_right hm (Nat.two_pow_pos j)
  rcases hj with hnormal | rfl
  · have hlower : j + 23 ≤ (m * 2 ^ j).log2 := by
      rw [Nat.le_log2 h0, Nat.add_comm, Nat.pow_add]
      exact Nat.mul_le_mul_right _ hnormal
    omega
  · omega

/-- The number of a significand and a shift is converted to the exponent field and fraction it has: the leading bit
of a normal significand counts as one more in the exponent field (R10). -/
theorem nearestMagnitude_significand (m j : Nat) (hm : m < 2 ^ 24) (hj : 2 ^ 23 ≤ m ∨ j = 0) :
    nearestMagnitude (m * 2 ^ j) (2 ^ 149) = min (j * 2 ^ 23 + m) 0x7F800000 := by
  by_cases h0 : m * 2 ^ j = 0
  · obtain rfl : m = 0 := by simpa using h0
    obtain rfl : j = 0 := by omega
    rfl
  · have hk : max (floorLog2 (m * 2 ^ j) (2 ^ 149) - 23) (-149) = (j : Int) - 149 := by
      have hlog := log2_significand m j hm hj h0
      rw [floorLog2_two_pow _ _ h0]
      omega
    have hexp : j + (-((j : Int) - 149)).toNat = 149 + ((j : Int) - 149).toNat := by omega
    have hnum : m * 2 ^ j * 2 ^ (-((j : Int) - 149)).toNat = m * (2 ^ 149 * 2 ^ ((j : Int) - 149).toNat) := by
      rw [Nat.mul_assoc, ← Nat.pow_add, hexp, Nat.pow_add]
    have hpos : 0 < 2 ^ 149 * 2 ^ ((j : Int) - 149).toNat :=
      Nat.mul_pos (Nat.two_pow_pos _) (Nat.two_pow_pos _)
    have hshift : ((j : Int) - 149 + 149).toNat = j := by omega
    simp only [nearestMagnitude, if_neg h0, hk, hnum, roundHalfEven_mul m _ hpos, hshift]

/-- The magnitude of a finite pattern is converted to its bits 30:0, subnormals included. -/
theorem nearestMagnitude_binary32Magnitude (expo frac : Nat) (he : expo < 255) (hf : frac < 2 ^ 23) :
    nearestMagnitude (binary32Magnitude expo frac) (2 ^ 149) = expo * 2 ^ 23 + frac := by
  unfold binary32Magnitude
  split
  · next h =>
    have hsub := nearestMagnitude_significand frac 0 (by omega) (.inr rfl)
    rw [Nat.pow_zero, Nat.mul_one] at hsub
    rw [hsub, h]
    omega
  · next h =>
    rw [nearestMagnitude_significand (frac + 2 ^ 23) (expo - 1) (by omega) (.inl (Nat.le_add_left _ _))]
    omega

/-! ### The fields of a binary32 pattern (R10) -/

/-- A pattern is its sign, exponent field and fraction. -/
theorem ofNat_binary32_fields (v : Word) :
    BitVec.ofNat 32 ((v.extractLsb' 23 8).toNat * 2 ^ 23 + (v.extractLsb' 0 23).toNat +
      if v.getLsbD 31 then 2 ^ 31 else 0) = v := by
  have hv := v.isLt
  have hsign : v.getLsbD 31 = decide (v.toNat / 2 ^ 31 % 2 = 1) := Nat.testBit_eq_decide_div_mod_eq
  have hexpo : (v.extractLsb' 23 8).toNat = v.toNat / 2 ^ 23 % 256 := by
    simp [BitVec.extractLsb'_toNat, Nat.shiftRight_eq_div_pow]
  have hfrac : (v.extractLsb' 0 23).toNat = v.toNat % 2 ^ 23 := by
    simp [BitVec.extractLsb'_toNat]
  apply BitVec.eq_of_toNat_eq
  rw [BitVec.toNat_ofNat, hsign, hexpo, hfrac]
  simp only [decide_eq_true_eq]
  split_ifs <;> omega

/-- A finite pattern denotes its magnitude, with its sign; its exponent field is not all ones. -/
theorem binary32Value_finite {v : Word} {units : Int} (h : binary32Value v = .finite units) :
    (v.extractLsb' 23 8).toNat ≠ 255 ∧
      units.natAbs = binary32Magnitude (v.extractLsb' 23 8).toNat (v.extractLsb' 0 23).toNat := by
  simp only [binary32Value] at h
  split at h
  · split at h <;> cases h
  · next he =>
    obtain rfl := Binary32.finite.inj h
    refine ⟨he, ?_⟩
    split <;> simp

/-- Settles O56. -/
theorem decimalConversionIsExactOnBinary32 : Obligations.DecimalConversionIsExactOnBinary32 := by
  intro v units h
  obtain ⟨hfinite, hunits⟩ := binary32Value_finite h
  have hexpo : (v.extractLsb' 23 8).toNat < 255 := by
    have hbyte := (v.extractLsb' 23 8).isLt
    omega
  rw [nearestBinary32, hunits, nearestMagnitude_binary32Magnitude _ _ hexpo (v.extractLsb' 0 23).isLt]
  exact ofNat_binary32_fields v

end Sys2Proof.Machine

/-! PROOFS. The checksum unit: the laws of the sum, what a change of a frame does to its checksum, and the markers of
the resynchronizer's events. -/

namespace Sys2Proof

/-! ### A changed byte of a sequence -/

theorem byteAt_set_self (s : List Byte) (i : Nat) (y : Byte) (h : i < s.length) : byteAt (s.set i y) i = y := by
  simp [byteAt, h]

theorem byteAt_set_ne (s : List Byte) (i j : Nat) (y : Byte) (h : i ≠ j) : byteAt (s.set i y) j = byteAt s j := by
  simp [byteAt, List.getD_eq_getElem?_getD, h]

/-! ### Slices (R6) -/

theorem slice_eq_map_byteAt (s : List Byte) (a b : Nat) (h : b ≤ s.length) :
    slice s a b = (List.range (b - a)).map fun i => byteAt s (i + a) := by
  apply List.ext_getElem
  · simp only [slice, List.length_take, List.length_drop, List.length_map, List.length_range]
    omega
  · intro i _ hi
    rw [List.length_map, List.length_range] at hi
    have hlt : a + i < s.length := by omega
    simp [slice, byteAt, Nat.add_comm i a, hlt]

theorem slice_append (s : List Byte) (a b c : Nat) (hab : a ≤ b) (hbc : b ≤ c) :
    slice s a b ++ slice s b c = slice s a c := by
  have hlen : c - a = (b - a) + (c - b) := by omega
  rw [slice, slice, slice, hlen, List.take_add, List.drop_drop, Nat.add_sub_cancel' hab]

theorem slice_singleton (s : List Byte) (i : Nat) (h : i < s.length) : slice s i (i + 1) = [byteAt s i] := by
  simp [slice_eq_map_byteAt s i (i + 1) h]

/-- A slice does not see a change before or after it. -/
theorem slice_set_outside (s : List Byte) (a b i : Nat) (y : Byte) (h : i < a ∨ b ≤ i) :
    slice (s.set i y) a b = slice s a b := by
  rcases h with hbefore | hafter
  · rw [slice, slice, List.drop_set, if_pos hbefore]
  · rw [slice, slice, List.drop_set]
    split
    · rfl
    · exact List.take_set_of_le (Nat.sub_le_sub_right hafter a)

/-! ### Laws of the sum (R103) -/

theorem sumBytes_perm {a b : List Byte} (h : a.Perm b) : sumBytes a = sumBytes b := by
  rw [sumBytes_eq_ofNat, sumBytes_eq_ofNat, (h.map _).sum_eq]

theorem sum8_split (s : List Byte) (a b c : Nat) (hab : a ≤ b) (hbc : b ≤ c) :
    sum8 s a c = sum8 s a b + sum8 s b c := by
  rw [sum8, ← slice_append s a b c hab hbc, sumBytes_append, ← sum8, ← sum8]

theorem sum8_singleton (s : List Byte) (i : Nat) (h : i < s.length) : sum8 s i (i + 1) = byteAt s i := by
  rw [sum8, slice_singleton s i h]
  exact BitVec.add_zero _

theorem sum8_set_outside (s : List Byte) (a b i : Nat) (y : Byte) (h : i < a ∨ b ≤ i) :
    sum8 (s.set i y) a b = sum8 s a b := by
  rw [sum8, sum8, slice_set_outside s a b i y h]

/-- A sum that contains an offset is the byte there, and the sums before and after it. -/
theorem sum8_around (s : List Byte) (a b i : Nat) (hai : a ≤ i) (hib : i < b) (hi : i < s.length) :
    sum8 s a b = sum8 s a i + (byteAt s i + sum8 s (i + 1) b) := by
  rw [sum8_split s a i b hai (by omega), sum8_split s i (i + 1) b (by omega) hib, sum8_singleton s i hi]

/-- Changing a summed byte changes the sum by the difference (R103). -/
theorem sum8_set (s : List Byte) (a b i : Nat) (y : Byte) (hai : a ≤ i) (hib : i < b) (hi : i < s.length) :
    sum8 (s.set i y) a b = sum8 s a b + (y - byteAt s i) := by
  calc sum8 (s.set i y) a b
      = sum8 (s.set i y) a i + (byteAt (s.set i y) i + sum8 (s.set i y) (i + 1) b) :=
        sum8_around _ a b i hai hib (by rwa [List.length_set])
    _ = sum8 s a i + (y + sum8 s (i + 1) b) := by
        rw [byteAt_set_self s i y hi, sum8_set_outside s a i i y (.inr (Nat.le_refl i)),
          sum8_set_outside s (i + 1) b i y (.inl (Nat.lt_succ_self i))]
    _ = sum8 s a i + (byteAt s i + sum8 s (i + 1) b) + (y - byteAt s i) := by ring
    _ = sum8 s a b + (y - byteAt s i) := by rw [← sum8_around s a b i hai hib hi]

/-- Settles O12. -/
theorem sumLaws : Obligations.SumLaws :=
  ⟨fun _ _ => sumBytes_perm, sum8_split, sum8_set, fun s a b => Nat.le_of_lt_succ (sum8 s a b).isLt⟩

/-! ### The checksum of a frame (R101, R102) -/

theorem legalFrameLength_iff (n : Nat) : legalFrameLength n = true ↔ n = 8 ∨ n = 32 := by
  simp [legalFrameLength]

/-- The checksum as a sum of numbers, over the offsets 2 to L-2. -/
theorem frameChecksum_eq_ofNat (f : List Byte) : frameChecksum f =
    BitVec.ofNat 8 (((List.range (f.length - 3)).map fun i => (byteAt f (i + 2)).toNat).sum) := by
  rw [frameChecksum, sum8, sumBytes_eq_ofNat, slice_eq_map_byteAt f 2 _ (Nat.sub_le _ _), List.map_map]
  rfl

theorem frameValid_iff (f : List Byte) : frameValid f = true ↔ byteAt f (f.length - 1) = frameChecksum f :=
  beq_iff_eq

/-- A frame is valid where the number in its last byte is the sum of numbers modulo 256. -/
theorem frameValid_eq_decide (f : List Byte) : frameValid f = decide ((byteAt f (f.length - 1)).toNat =
    ((List.range (f.length - 3)).map fun i => (byteAt f (i + 2)).toNat).sum % 256) := by
  rw [Bool.eq_iff_iff, frameValid_iff, frameChecksum_eq_ofNat, ← BitVec.toNat_inj, BitVec.toNat_ofNat,
    decide_eq_true_iff]

/-! ### What a changed byte does to the checksum (R104, R105) -/

theorem frameChecksum_set_summed (f : List Byte) (i : Nat) (y : Byte) (h2 : 2 ≤ i) (hi : i < f.length - 1) :
    frameChecksum (f.set i y) = frameChecksum f + (y - byteAt f i) := by
  rw [frameChecksum, frameChecksum, List.length_set, sum8_set f 2 _ i y h2 hi (by omega)]

theorem frameChecksum_set_unsummed (f : List Byte) (i : Nat) (y : Byte) (h : i < 2 ∨ f.length - 1 ≤ i) :
    frameChecksum (f.set i y) = frameChecksum f := by
  rw [frameChecksum, frameChecksum, List.length_set, sum8_set_outside f 2 _ i y h]

/-- The marker is outside the checksum. -/
theorem frameValid_set_marker (f : List Byte) (i : Nat) (y : Byte) (hl : 3 ≤ f.length) (hi : i < 2) :
    frameValid (f.set i y) = frameValid f := by
  rw [frameValid, frameValid, List.length_set, frameChecksum_set_unsummed f i y (.inl hi),
    byteAt_set_ne f i _ y (by omega)]

/-- A change of one byte from offset 2 on, the checksum included, is detected whatever the change is. -/
theorem frameValid_set_eq_false (f : List Byte) (i : Nat) (y : Byte) (hv : frameValid f = true) (h2 : 2 ≤ i)
    (hi : i < f.length) (hy : y ≠ byteAt f i) : frameValid (f.set i y) = false := by
  rw [frameValid_iff] at hv
  rw [Bool.eq_false_iff, ne_eq, frameValid_iff, List.length_set]
  by_cases hlast : i = f.length - 1
  · rw [← hlast] at hv ⊢
    rwa [byteAt_set_self f i y hi, frameChecksum_set_unsummed f i y (.inr hlast.ge), ← hv]
  · rw [byteAt_set_ne f i _ y hlast, frameChecksum_set_summed f i y h2 (by omega), hv, left_eq_add, sub_eq_zero]
    exact hy

/-- Flipping one bit of a byte changes the byte. -/
theorem flipBit_ne (x : Byte) (k : Nat) (hk : k < 8) : x ^^^ (1#8 <<< k) ≠ x := by
  intro h
  have hbit := congrArg (·.getLsbD k) h
  simp [hk] at hbit

/-- What is added to one summed byte and taken from another cancels in the checksum. -/
theorem frameValid_set_compensating (f : List Byte) (i j : Nat) (d : Byte) (h2i : 2 ≤ i) (hi : i < f.length - 1)
    (h2j : 2 ≤ j) (hj : j < f.length - 1) (hij : i ≠ j) :
    frameValid ((f.set i (byteAt f i + d)).set j (byteAt f j - d)) = frameValid f := by
  have hsum : frameChecksum ((f.set i (byteAt f i + d)).set j (byteAt f j - d)) = frameChecksum f := by
    rw [frameChecksum_set_summed _ j _ h2j (by rwa [List.length_set]), frameChecksum_set_summed f i _ h2i hi,
      byteAt_set_ne f i j _ hij]
    ring
  rw [frameValid, frameValid, hsum, List.length_set, List.length_set, byteAt_set_ne _ j _ _ hj.ne,
    byteAt_set_ne f i _ _ hi.ne]

end Sys2Proof

namespace Sys2Proof.Machine

/-! ### CKSUM and VALIDATE (R101, R102) -/

theorem exec_cksum_legal (f : List Byte) (s : State) (h : f.length = 8 ∨ f.length = 32) :
    exec (.cksum f) s = .next { s with result := some (.ok (.byte (frameChecksum f))) } :=
  if_pos ((legalFrameLength_iff _).mpr h)

theorem exec_cksum_illegal (f : List Byte) (s : State) (h : ¬(f.length = 8 ∨ f.length = 32)) :
    exec (.cksum f) s = .refused (.badLength f.length) :=
  if_neg (mt (legalFrameLength_iff _).mp h)

theorem exec_validate_legal (f : List Byte) (s : State) (h : f.length = 8 ∨ f.length = 32) :
    exec (.validate f) s = .next { s with result := some (.ok (.bool (frameValid f))) } :=
  if_pos ((legalFrameLength_iff _).mpr h)

theorem exec_validate_illegal (f : List Byte) (s : State) (h : ¬(f.length = 8 ∨ f.length = 32)) :
    exec (.validate f) s = .refused (.badLength f.length) :=
  if_neg (mt (legalFrameLength_iff _).mp h)

/-- VALIDATE's answer is whether the frame is valid. -/
theorem exec_validate_eq_iff (f : List Byte) (s : State) (b : Bool) (h : f.length = 8 ∨ f.length = 32) :
    exec (.validate f) s = .next { s with result := some (.ok (.bool b)) } ↔ frameValid f = b := by
  rw [exec_validate_legal f s h]
  simp

/-- Settles O10. -/
theorem cksumSumsOffsetTwoToLast : Obligations.CksumSumsOffsetTwoToLast := by
  intro f s
  constructor
  · intro h
    rw [exec_cksum_legal f s h, frameChecksum_eq_ofNat]
  · intro h
    exact exec_cksum_illegal f s (not_or.mpr h)

/-- Settles O11. -/
theorem validateComparesTheLastByte : Obligations.ValidateComparesTheLastByte := by
  intro f s
  constructor
  · intro h
    rw [exec_validate_legal f s h, frameValid_eq_decide]
  · intro h
    exact exec_validate_illegal f s (not_or.mpr h)

/-- Settles O14: the two changes keep the length and cancel in the checksum. -/
theorem compensatingChangesAreNotDetected : Obligations.CompensatingChangesAreNotDetected := by
  intro f s i j d hl h2i hi h2j hj hij
  rw [exec_validate_legal f s hl, exec_validate_legal _ s (by simpa only [List.length_set] using hl),
    frameValid_set_compensating f i j d h2i hi h2j hj hij]

/-! ### The markers of events (R104, R184) -/

/-- Every event of a scan judges a candidate, whatever the previous record was. -/
theorem event_judges_candidate (buf : List Byte) (prev : Option TlmRecord) :
    ∀ e ∈ (scan buf prev).events, ∃ f q, Candidate f ∧ e = (judge f q).1 := by
  induction hn : buf.length using Nat.strong_induction_on generalizing buf prev with
  | _ n ih =>
    rcases scan_cases buf prev with ⟨b, -, hs⟩ | ⟨f, rest, hc, hsuffix, hs⟩
    · simp [hs]
    · have hshorter : rest.length < n := by
        have hle := hsuffix.length_le
        have hpos := hc.length_pos
        rw [List.length_append] at hle
        omega
      rw [hs]
      exact List.forall_mem_cons.mpr ⟨⟨f, prev, hc, rfl⟩, ih rest.length hshorter rest _ rfl⟩

/-- Every event of an operation judges a candidate: the stateless units and RESET emit none. -/
theorem emitted_judges_candidate (i : Instr) (s t : State) (h : exec i s = .next t) :
    ∀ e ∈ t.emitted, ∃ f q, Candidate f ∧ e = (judge f q).1 := by
  rcases exec_cases i s t h with ⟨r, hr, rfl⟩ | ⟨-, rfl⟩ | ⟨sop, bytes, -, harrive⟩
  · simp [hr.emitted_eq_nil s]
  · simp
  · rw [State.arrive_eq] at harrive
    obtain rfl := Host.Outcome.next.inj harrive
    exact event_judges_candidate _ _

/-- An event begins with the marker: its frame with `EB 90`, its new record with `EB 90 DD`. -/
def EventMarked : Event → Prop
  | .tlm cur _ => cur.header = ⟨marker0, marker1, discTlm⟩
  | .ack f => f.take 2 = [marker0, marker1]
  | .ckerr f => f.take 2 = [marker0, marker1]

theorem eventMarked_judge (f : List Byte) (prev : Option TlmRecord) (hc : Candidate f) :
    EventMarked (judge f prev).1 := by
  rcases judge_cases f prev with ⟨-, hj⟩ | ⟨hv, hl, hj⟩ | ⟨-, -, hj⟩ <;> rw [hj]
  · exact hc.1
  · exact (recordSound_telemetryRecord f hc hl hv).1
  · exact hc.1

theorem eventMarked_of_mem_emitted (i : Instr) (s t : State) (h : exec i s = .next t) (e : Event)
    (he : e ∈ t.emitted) : EventMarked e := by
  obtain ⟨f, q, hc, rfl⟩ := emitted_judges_candidate i s t h e he
  exact eventMarked_judge f q hc

/-- Settles O13: any change of one byte from offset 2 on is detected, so that of one bit is. -/
theorem singleBitFlipIsDetected : Obligations.SingleBitFlipIsDetected := by
  refine ⟨?_, ?_, ?_⟩
  · intro f s i k hl hvalid h2 hi hk
    rw [exec_validate_eq_iff f s _ hl] at hvalid
    rw [exec_validate_eq_iff _ s _ (by rwa [List.length_set])]
    exact frameValid_set_eq_false f i _ hvalid h2 hi (flipBit_ne _ k hk)
  · intro f s i y hl hvalid hi
    rw [exec_validate_eq_iff f s _ hl] at hvalid
    rw [exec_validate_eq_iff _ s _ (by rwa [List.length_set]), frameValid_set_marker f i y (by omega) hi, hvalid]
  · intro i s t h
    have hmarked := eventMarked_of_mem_emitted i s t h
    constructor
    · rintro f (hack | hckerr)
      · exact hmarked (.ack f) hack
      · exact hmarked (.ckerr f) hckerr
    · intro cur prev htlm
      exact hmarked (.tlm cur prev) htlm

end Sys2Proof.Machine

/-! PROOFS. The command encoder: the range check, the frames of the four kinds, and what their echo does. -/

namespace Sys2Proof

/-! ### The magnitude of a binary32 pattern (R10) -/

/-- The magnitude that bits 30:0 denote, in units of `2^-149`; these bits are the exponent field and the fraction. -/
def bitsMagnitude (bits : Nat) : Nat := binary32Magnitude (bits / 2 ^ 23) (bits % 2 ^ 23)

/-- The next pattern denotes a larger magnitude, also where the fraction is full and the exponent goes up. -/
theorem bitsMagnitude_lt_succ (bits : Nat) : bitsMagnitude bits < bitsMagnitude (bits + 1) := by
  obtain ⟨hexpo, hfrac⟩ | ⟨hexpo, hfull, hzero⟩ :
      ((bits + 1) / 2 ^ 23 = bits / 2 ^ 23 ∧ (bits + 1) % 2 ^ 23 = bits % 2 ^ 23 + 1) ∨
        ((bits + 1) / 2 ^ 23 = bits / 2 ^ 23 + 1 ∧ bits % 2 ^ 23 = 2 ^ 23 - 1 ∧ (bits + 1) % 2 ^ 23 = 0) := by
    omega
  · rw [bitsMagnitude, bitsMagnitude, hexpo, hfrac, binary32Magnitude, binary32Magnitude]
    split
    · exact Nat.lt_succ_self _
    · exact Nat.mul_lt_mul_of_pos_right (by omega) (Nat.two_pow_pos _)
  · rw [bitsMagnitude, bitsMagnitude, hexpo, hfull, hzero]
    cases bits / 2 ^ 23 with
    | zero => decide
    | succ e =>
      have hpos := Nat.two_pow_pos e
      simp only [binary32Magnitude, Nat.succ_ne_zero, if_false, Nat.add_sub_cancel, Nat.pow_succ 2 e]
      omega

/-- Patterns are ordered, without their sign, as the magnitudes they denote (R122). -/
theorem bitsMagnitude_strictMono : StrictMono bitsMagnitude := strictMono_nat_of_lt_succ bitsMagnitude_lt_succ

/-- The exponent field and the fraction are the parts of bits 30:0. -/
theorem binary32_fields_eq (v : Word) :
    (v.extractLsb' 23 8).toNat = (v.extractLsb' 0 31).toNat / 2 ^ 23 ∧
      (v.extractLsb' 0 23).toNat = (v.extractLsb' 0 31).toNat % 2 ^ 23 := by
  simp only [BitVec.extractLsb'_toNat, Nat.shiftRight_eq_div_pow]
  omega

/-- A pattern denotes a number where its exponent field is not all ones. -/
theorem binary32Value_eq_finite (v : Word) (h : (v.extractLsb' 23 8).toNat ≠ 255) :
    ∃ units, binary32Value v = .finite units :=
  ⟨_, if_neg h⟩

/-- The numbers of magnitude at most `n` are the patterns with a finite exponent field and that magnitude. -/
theorem binary32Value_natAbs_le_iff (v : Word) (n : Nat) :
    (∃ units, binary32Value v = .finite units ∧ units.natAbs ≤ n) ↔
      (v.extractLsb' 0 31).toNat < 255 * 2 ^ 23 ∧ bitsMagnitude (v.extractLsb' 0 31).toNat ≤ n := by
  obtain ⟨hexpo, hfrac⟩ := binary32_fields_eq v
  have hbits := (v.extractLsb' 0 31).isLt
  rw [bitsMagnitude, ← hexpo, ← hfrac]
  constructor
  · rintro ⟨units, hv, hn⟩
    obtain ⟨hfinite, habs⟩ := Machine.binary32Value_finite hv
    exact ⟨by omega, habs ▸ hn⟩
  · rintro ⟨hlt, hn⟩
    obtain ⟨units, hv⟩ := binary32Value_eq_finite v (by omega)
    obtain ⟨-, habs⟩ := Machine.binary32Value_finite hv
    exact ⟨units, hv, habs ▸ hn⟩

/-! ### The range check (R121, R122) -/

theorem inRange_iff {k : Kind} {bound : Nat} (hk : k.boundMagnitude = some bound) (v : Word) :
    inRange k v = true ↔ (v.extractLsb' 0 31).toNat ≤ bound := by
  simp only [inRange, hk, decide_eq_true_iff]

/-- A value is in its real range where it is a number of magnitude at most the limit. -/
theorem realInRange_iff {k : Kind} {limit : Nat} (hk : k.limit = some limit) (v : Word) :
    realInRange k v = true ↔ ∃ units, binary32Value v = .finite units ∧ units.natAbs ≤ limit * 2 ^ 149 := by
  simp only [realInRange, hk]
  cases binary32Value v with
  | nan => simp
  | infinity negative => simp
  | finite units =>
    simp only [Bool.and_eq_true, decide_eq_true_iff, Binary32.finite.injEq, exists_eq_left']
    omega

/-- Each bound's bits 30:0 denote the limit in device units, a finite number (R121). -/
theorem boundMagnitude_denotes_limit (k : Kind) (hk : k ≠ .poll) : ∃ bound limit,
    k.boundMagnitude = some bound ∧ k.limit = some limit ∧ bound < 255 * 2 ^ 23 ∧
      bitsMagnitude bound = limit * 2 ^ 149 := by
  cases k with
  | poll => exact absurd rfl hk
  | current => exact ⟨_, _, rfl, rfl, by decide, by decide⟩
  | speed => exact ⟨_, _, rfl, rfl, by decide, by decide⟩
  | torque => exact ⟨_, _, rfl, rfl, by decide, by decide⟩

/-- Settles O6: patterns are ordered as the magnitudes they denote, and the bound's pattern denotes the limit. -/
theorem rangeCheckComparesTheDenotedValue : Obligations.RangeCheckComparesTheDenotedValue := by
  intro k v hk
  obtain ⟨bound, limit, hbound, hlimit, hfinite, hdenotes⟩ := boundMagnitude_denotes_limit k hk
  rw [Bool.eq_iff_iff, inRange_iff hbound, realInRange_iff hlimit, binary32Value_natAbs_le_iff, ← hdenotes,
    bitsMagnitude_strictMono.le_iff_le]
  omega

/-! ### Command frames (R60 to R63, R120) -/

/-- The payload a kind's frame carries: the value, and zero for Poll (R62, R69). -/
def Kind.payload (k : Kind) (v : Word) : Word := if k = .poll then 0 else v

theorem Kind.payload_of_ne (k : Kind) (v : Word) (hk : k ≠ .poll) : k.payload v = v := if_neg hk

/-- The four wire codes (R61). -/
theorem Kind.code_cases (k : Kind) : k.code = 0xD1 ∨ k.code = 0xD2 ∨ k.code = 0xD3 ∨ k.code = 0xDD := by
  cases k <;> decide

/-- The sum a kind's frame carries, over its code and payload (R63). -/
def Kind.checksum (k : Kind) (v : Word) : Byte :=
  k.code + (k.payload v).extractLsb' 24 8 + (k.payload v).extractLsb' 16 8 + (k.payload v).extractLsb' 8 8 +
    (k.payload v).extractLsb' 0 8

/-- A command frame is eight bytes with the kind's code and payload and their sum. -/
theorem commandFrame_eq_frame8 (k : Kind) (v : Word) :
    commandFrame k v = frame8 k.code (k.payload v) (k.checksum v) :=
  congrArg (frame8 k.code (k.payload v)) ((Machine.frameValid_frame8 _ _ _).mp (frameValid_commandFrame k v))

end Sys2Proof

namespace Sys2Proof.Machine

/-! ### The ENC operations (R123 to R126) -/

/-- ENC of an in-range value returns the kind's command frame. -/
theorem exec_encInstr_of_inRange (k : Kind) (v : Word) (s : State) (h : inRange k v = true) :
    exec (encInstr k v) s = .next { s with result := some (.ok (.frame (commandFrame k v))) } := by
  rw [exec_encInstr, encodeCommand, if_pos h]

/-- ENC of any other value returns `OutOfRange`. -/
theorem exec_encInstr_of_not_inRange (k : Kind) (v : Word) (s : State) (h : ¬inRange k v = true) :
    exec (encInstr k v) s = .next { s with result := some (.err .outOfRange) } := by
  rw [exec_encInstr, encodeCommand, if_neg h]

/-- A frame that ENC returned is the kind's command frame, on a block with the parameters it had. -/
theorem frame_of_exec_encInstr {k : Kind} {v : Word} {s t : State} {f : List Byte}
    (h : exec (encInstr k v) s = .next t) (hf : t.result = some (.ok (.frame f))) :
    f = commandFrame k v ∧ t.params = s.params := by
  refine ⟨?_, exec_params _ s t h⟩
  rw [exec_encInstr] at h
  obtain rfl := Host.Outcome.next.inj h
  rcases encodeCommand_cases k v with ⟨-, he⟩ | ⟨-, he⟩
  · simpa [he, eq_comm] using hf
  · simp [he] at hf

/-- ENC of a kind with a bound compares bits 30:0 with it, and builds the frame of the value (R123 to R125). -/
theorem exec_encInstr_bound (k : Kind) {bound : Nat} (hb : k.boundMagnitude = some bound) (v : Word) (s : State) :
    ((v.extractLsb' 0 31).toNat ≤ bound →
      exec (encInstr k v) s = .next { s with result := some (.ok (.frame (frame8 k.code v
        (k.code + v.extractLsb' 24 8 + v.extractLsb' 16 8 + v.extractLsb' 8 8 + v.extractLsb' 0 8)))) }) ∧
    (bound < (v.extractLsb' 0 31).toNat →
      exec (encInstr k v) s = .next { s with result := some (.err .outOfRange) }) := by
  have hk : k ≠ .poll := by
    rintro rfl
    cases hb
  constructor
  · intro h
    rw [exec_encInstr_of_inRange k v s ((inRange_iff hb v).mpr h), commandFrame_eq_frame8, Kind.checksum,
      k.payload_of_ne v hk]
  · intro h
    exact exec_encInstr_of_not_inRange k v s (mt (inRange_iff hb v).mp (Nat.not_le.mpr h))

/-- Settles O1. -/
theorem encCurrentChecksRangeAndBuildsFrame : Obligations.EncCurrentChecksRangeAndBuildsFrame :=
  exec_encInstr_bound .current rfl

/-- Settles O2. -/
theorem encSpeedChecksRangeAndBuildsFrame : Obligations.EncSpeedChecksRangeAndBuildsFrame :=
  exec_encInstr_bound .speed rfl

/-- Settles O3. -/
theorem encTorqueChecksRangeAndBuildsFrame : Obligations.EncTorqueChecksRangeAndBuildsFrame :=
  exec_encInstr_bound .torque rfl

/-- Poll has no range: every value passes. -/
theorem exec_encPoll (v : Word) (s : State) :
    exec (.encPoll v) s = .next { s with result := some (.ok (.frame (commandFrame .poll v))) } :=
  exec_encInstr_of_inRange .poll v s rfl

/-- Settles O4: the common form for Poll is the literal. -/
theorem encPollReturnsLiteralFrame : Obligations.EncPollReturnsLiteralFrame := by
  intro v s
  rw [exec_encPoll, commandFrame_poll, pollFrame]

/-- Settles O5. -/
theorem pollLiteralIsTheCommonForm : Obligations.PollLiteralIsTheCommonForm :=
  ⟨by decide, by decide, exec_encPoll⟩

/-- Settles O7. -/
theorem encodedValueRoundTrips : Obligations.EncodedValueRoundTrips := by
  intro k v s hk hrange
  refine ⟨commandFrame k v, exec_encInstr_of_inRange k v s hrange, ?_, ?_⟩
  · rw [commandFrame_eq_frame8, be32_frame8, k.payload_of_ne v hk]
  · rw [exec_validate_legal _ s (.inl (commandFrame_length k v)), frameValid_commandFrame]

/-! ### Command frames on the link (R131, R267; log 3) -/

/-- Settles O36: a command frame is received as an acknowledgment of the same bytes would be. -/
theorem echoedCommandFrames : Obligations.EchoedCommandFrames := by
  intro p x s hs
  constructor
  · rintro i code (⟨rfl, rfl⟩ | ⟨rfl, rfl⟩ | ⟨rfl, rfl⟩)
    · exact (acknowledgmentArrives 0xD1 p x s).1 (by decide) hs
    · exact (acknowledgmentArrives 0xD2 p x s).1 (by decide) hs
    · exact (acknowledgmentArrives 0xD3 p x s).1 (by decide) hs
  · exact (acknowledgmentArrives 0xDD 0 0xDD s).2 rfl hs

/-- A command frame pushed back as one chunk is an ACK, but for Poll, whose frame waits (R131). -/
theorem exec_push_commandFrame (k : Kind) (v : Word) (t : State) (ht : 8 ≤ t.params.chunkMax) :
    exec (.push (commandFrame k v)) t =
      if k.code = 0xDD then .next { t with buf := commandFrame k v, result := some (.ok (.events [])) }
      else .next { t with buf := [], result := some (.ok (.events [.ack (commandFrame k v)])) } := by
  obtain ⟨hack, hwait⟩ := acknowledgmentArrives k.code (k.payload v) (k.checksum v) t
  rw [commandFrame_eq_frame8]
  split
  · next hpoll =>
    refine (hwait hpoll ht).trans ?_
    rw [hpoll]
    rfl
  · next hcode =>
    refine (hack hcode ht).trans ?_
    rw [Kind.checksum, if_pos rfl]
    rfl

/-- Settles O8. -/
theorem encodedFramesAndTheirEcho : Obligations.EncodedFramesAndTheirEcho := by
  intro k v s t f h hf
  obtain ⟨rfl, hparams⟩ := frame_of_exec_encInstr h hf
  have hcode : byteAt (commandFrame k v) 2 = k.code := rfl
  rw [hcode]
  exact ⟨commandFrame_length k v, rfl, k.code_cases, fun hs => exec_push_commandFrame k v t (hparams ▸ hs)⟩

end Sys2Proof.Machine

/-! PROOFS. The telemetry decoder: which frames decode, what their records show, and what the marker does not do. -/

namespace Sys2Proof

/-! ### The numbers a record shows (R155, R156) -/

/-- The temperature's bit 7 counts for minus 128 (R155). -/
theorem telemetryRecord_celsius (f : List Byte) : (telemetryRecord f).celsius =
    if (byteAt f 25).toNat < 128 then ((byteAt f 25).toNat : Int) else (byteAt f 25).toNat - 256 := by
  have hsign : 2 * (byteAt f 25).toNat < 2 ^ 8 ↔ (byteAt f 25).toNat < 128 := by omega
  exact (BitVec.toInt_eq_toNat_cond _).trans (if_congr hsign rfl rfl)

theorem telemetryRecord_motherboardReading (f : List Byte) :
    (telemetryRecord f).motherboardReading = (byteAt f 23).toNat * 256 + (byteAt f 24).toNat :=
  be16_toNat f 23

/-! ### The marker in a record (R153) -/

/-- The fields after the header are read from offset 3 on. -/
theorem telemetryFields_set_header (f : List Byte) (i : Nat) (y : Byte) (hi : i < 3) :
    telemetryFields (f.set i y) = telemetryFields f := by
  have hbyte (j : Nat) (hj : 3 ≤ j) : byteAt (f.set i y) j = byteAt f j := byteAt_set_ne f i j y (by omega)
  simp only [telemetryFields, be32, be16, Nat.reduceAdd, Nat.reduceLeDiff, hbyte]

/-- The record of a frame with another marker differs in its header alone, which shows that marker. -/
theorem telemetryRecord_set_marker (f : List Byte) (x y : Byte) (hl : 2 ≤ f.length) :
    telemetryRecord ((f.set 0 x).set 1 y) = { telemetryRecord f with header := ⟨x, y, byteAt f 2⟩ } := by
  have h0 : byteAt ((f.set 0 x).set 1 y) 0 = x := by
    rw [byteAt_set_ne _ 1 0 y (by decide), byteAt_set_self f 0 x (by omega)]
  have h1 : byteAt ((f.set 0 x).set 1 y) 1 = y := byteAt_set_self _ 1 y (by rw [List.length_set]; omega)
  have h2 : byteAt ((f.set 0 x).set 1 y) 2 = byteAt f 2 := by
    rw [byteAt_set_ne _ 1 2 y (by decide), byteAt_set_ne f 0 2 x (by decide)]
  simp only [telemetryRecord, h0, h1, h2, telemetryFields_set_header _ 1 y (by decide),
    telemetryFields_set_header f 0 x (by decide)]

/-! ### A frame is its record (R160) -/

/-- Frames of 32 bytes have the same record only where they are the same. -/
theorem telemetryRecord_inj {f g : List Byte} (hf : f.length = 32) (hg : g.length = 32) :
    telemetryRecord f = telemetryRecord g ↔ f = g := by
  constructor
  · intro h
    rw [← telemetryRecord_frame f hf, h, telemetryRecord_frame g hg]
  · exact congrArg telemetryRecord

end Sys2Proof

namespace Sys2Proof.Machine

/-! ### What DECODE_TLM answers (R150, R152) -/

/-- On 32 bytes DECODE_TLM completes, with the record or with `ChecksumError`. -/
theorem exec_decodeTlm_legal (f : List Byte) (s : State) (hl : f.length = 32) :
    exec (.decodeTlm f) s = .next { s with result := some (decodeTelemetry f) } :=
  (if_pos hl).trans (s.complete_of_ne _ (decodeTelemetry_ne_reserved f))

theorem exec_decodeTlm_illegal (f : List Byte) (s : State) (hl : f.length ≠ 32) :
    exec (.decodeTlm f) s = .refused (.badLength f.length) :=
  if_neg hl

theorem exec_decodeTlm_of_valid (f : List Byte) (s : State) (hl : f.length = 32) (hv : frameValid f = true) :
    exec (.decodeTlm f) s = .next { s with result := some (.ok (.record (telemetryRecord f))) } := by
  rw [exec_decodeTlm_legal f s hl, decodeTelemetry, if_pos hv]

theorem exec_decodeTlm_of_not_valid (f : List Byte) (s : State) (hl : f.length = 32) (hv : ¬frameValid f = true) :
    exec (.decodeTlm f) s = .next { s with result := some (.err .checksumError) } := by
  rw [exec_decodeTlm_legal f s hl, decodeTelemetry, if_neg hv]

/-- A record that DECODE_TLM returned is that of its frame, which has 32 bytes and is valid. -/
theorem record_of_exec_decodeTlm {f : List Byte} {s t : State} {r : TlmRecord} (h : exec (.decodeTlm f) s = .next t)
    (hr : t.result = some (.ok (.record r))) : f.length = 32 ∧ frameValid f = true ∧ r = telemetryRecord f := by
  by_cases hl : f.length = 32
  · rw [exec_decodeTlm_legal f s hl] at h
    obtain rfl := Host.Outcome.next.inj h
    rcases decodeTelemetry_cases f with ⟨hv, hd⟩ | ⟨-, hd⟩
    · exact ⟨hl, hv, by simpa [hd, eq_comm] using hr⟩
    · simp [hd] at hr
  · simp [exec_decodeTlm_illegal f s hl] at h

/-- Settles O16: at 32 bytes the last offset is 31, and the frame is valid where it holds the sum. -/
theorem decodeTlmBuildsTheRecord : Obligations.DecodeTlmBuildsTheRecord := by
  intro f s
  have hvalid (hl : f.length = 32) : frameValid f = true ↔ byteAt f 31 = sum8 f 2 31 := by
    rw [frameValid_iff, frameChecksum, hl]
  refine ⟨?_, ?_, exec_decodeTlm_illegal f s⟩
  · intro hl hsum
    exact exec_decodeTlm_of_valid f s hl ((hvalid hl).mpr hsum)
  · intro hl hsum
    exact exec_decodeTlm_of_not_valid f s hl (mt (hvalid hl).mp hsum)

/-- Settles O17: the record's frame is the frame it was decoded from. -/
theorem decodingLosesNothing : Obligations.DecodingLosesNothing := by
  intro f g s t u a b hf ha hg hb
  obtain ⟨hlf, -, rfl⟩ := record_of_exec_decodeTlm hf ha
  obtain ⟨hlg, -, rfl⟩ := record_of_exec_decodeTlm hg hb
  exact ⟨telemetryRecord_frame f hlf, telemetryRecord_inj hlf hlg⟩

/-- Settles O18. -/
theorem temperatureIsSignedAndCurrentUnsigned : Obligations.TemperatureIsSignedAndCurrentUnsigned := by
  intro f s t r h hr
  obtain ⟨-, -, rfl⟩ := record_of_exec_decodeTlm h hr
  exact ⟨telemetryRecord_celsius f, telemetryRecord_motherboardReading f⟩

/-- Settles O19: the marker is outside the checksum, and the record shows it in its header alone. -/
theorem decodeTlmDoesNotCheckTheMarker : Obligations.DecodeTlmDoesNotCheckTheMarker := by
  intro f s t x y r h hr
  obtain ⟨hl, hv, rfl⟩ := record_of_exec_decodeTlm h hr
  have hl0 : (f.set 0 x).length = 32 := List.length_set.trans hl
  have hvalid : frameValid ((f.set 0 x).set 1 y) = true := by
    rw [frameValid_set_marker _ 1 y (by omega) (by decide), frameValid_set_marker f 0 x (by omega) (by decide), hv]
  rw [exec_decodeTlm_of_valid _ s (List.length_set.trans hl0) hvalid, telemetryRecord_set_marker f x y (by omega)]

end Sys2Proof.Machine

/-! PROOFS. The resynchronizer: arriving bytes, the marker search, the passes of a scan, and the laws of streams. -/

namespace Sys2Proof.Machine

/-! ### Bytes that arrive (R180 to R182, R201, R205) -/

/-- Step 1 on bytes that arrive: the buffer is emptied only for an `EB` that begins a chunk. -/
theorem clearOnMarker_eq (sop : Bool) (c buf : List Byte) (hc : c ≠ []) :
    clearOnMarker sop c buf = if sop = true ∧ byteAt c 0 = 0xEB then [] else buf := by
  cases c with
  | nil => exact absurd rfl hc
  | cons b bs => simp [clearOnMarker, byteAt, marker0]

/-- Step 1 looks at the first byte alone. -/
theorem clearOnMarker_append (sop : Bool) (c d buf : List Byte) (hc : c ≠ []) :
    clearOnMarker sop (c ++ d) buf = clearOnMarker sop c buf := by
  cases c with
  | nil => exact absurd rfl hc
  | cons b bs => rfl

/-- Step 1 adds nothing to the buffer. -/
theorem clearOnMarker_length_le (sop : Bool) (c buf : List Byte) : (clearOnMarker sop c buf).length ≤ buf.length := by
  unfold clearOnMarker
  split
  · exact Nat.zero_le _
  · exact Nat.le_refl _

theorem exec_push_legal (c : List Byte) (s : State) (h1 : 1 ≤ c.length) (h2 : c.length ≤ s.params.chunkMax) :
    exec (.push c) s = s.arrive true c :=
  s.pushChunk_legal c h1 h2

theorem exec_pushByte_of_port (b : Byte) (sop : Bool) (s : State) (h : s.params.bytePort = true) :
    exec (.pushByte b sop) s = s.arrive sop [b] :=
  if_pos h

/-- Settles O20. -/
theorem pushClearsAppendsAndScans : Obligations.PushClearsAppendsAndScans := by
  intro c s h1 h2
  have hc : c ≠ [] := List.ne_nil_of_length_pos h1
  rw [exec_push_legal c s h1 h2, s.arrive_eq, receive, clearOnMarker_eq true c s.buf hc]
  simp only [true_and]

/-- Settles O27. -/
theorem pushByteNeedsThePort : Obligations.PushByteNeedsThePort := by
  intro b sop s h
  exact if_neg (by simp [h])

/-- Bytes that begin a chunk with `EB` are received as if the buffer had been empty. -/
theorem receive_of_head (c buf : List Byte) (prev : Option TlmRecord) (h : byteAt c 0 = 0xEB) :
    receive true c buf prev = receive true c [] prev := by
  have hc : c ≠ [] := by
    rintro rfl
    exact absurd h (by decide)
  simp only [receive, clearOnMarker_eq true c _ hc, h, and_self, if_true]

/-- Settles O29: a chunk's length is legal or not whatever the buffer holds, and a legal one clears it. -/
theorem markerLedChunkDiscardsThePartialFrame : Obligations.MarkerLedChunkDiscardsThePartialFrame := by
  intro c s held h
  have harrive : ({ s with buf := held } : State).arrive true c = ({ s with buf := [] } : State).arrive true c := by
    rw [State.arrive_eq, State.arrive_eq]
    simp only [receive_of_head c held s.prev h]
  rcases State.pushChunk_cases { s with buf := [] } c with ⟨hbad, hr⟩ | ⟨h1, h2, ha⟩
  · exact (if_pos hbad).trans hr.symm
  · exact ((State.pushChunk_legal { s with buf := held } c h1 h2).trans harrive).trans ha.symm

/-! ### The marker search (R183) -/

/-- `EB 90` stands at this offset. -/
def MarkerAt (b : List Byte) (p : Nat) : Prop := byteAt b p = marker0 ∧ byteAt b (p + 1) = marker1

/-- The search answers an offset at which the marker stands. -/
theorem markerAt_of_findMarker : ∀ (b : List Byte) (p : Nat), findMarker b = some p → MarkerAt b p
  | [], _, h => by simp [findMarker] at h
  | [_], _, h => by simp [findMarker] at h
  | x :: y :: rest, p, h => by
    unfold findMarker at h
    split at h
    · next hm => obtain rfl := Option.some.inj h; exact hm
    · obtain ⟨q, hq, rfl⟩ := Option.map_eq_some_iff.mp h
      exact markerAt_of_findMarker (y :: rest) q hq

/-- Where the marker stands, the search answers that offset or a lesser one. -/
theorem findMarker_le_of_markerAt : ∀ (b : List Byte) (q : Nat), MarkerAt b q → ∃ p ≤ q, findMarker b = some p
  | [], _, h => absurd h.1 (by decide : (0 : Byte) ≠ marker0)
  | [_], _, h => absurd h.2 (by decide : (0 : Byte) ≠ marker1)
  | x :: y :: rest, q, h => by
    by_cases hm : x = marker0 ∧ y = marker1
    · exact ⟨0, Nat.zero_le q, if_pos hm⟩
    · cases q with
      | zero => exact absurd h hm
      | succ q =>
        obtain ⟨p, hp, hfind⟩ := findMarker_le_of_markerAt (y :: rest) q h
        exact ⟨p + 1, Nat.succ_le_succ hp, by rw [findMarker, if_neg hm, hfind]; rfl⟩

theorem not_markerAt_of_findMarker_none {b : List Byte} (h : findMarker b = none) (q : Nat) : ¬MarkerAt b q := by
  intro hq
  obtain ⟨p, -, hp⟩ := findMarker_le_of_markerAt b q hq
  exact absurd (h.symm.trans hp) (by simp)

/-- The trim keeps the last byte where it is `EB`. -/
theorem trimNoMarker_eq (b : List Byte) :
    trimNoMarker b = if b ≠ [] ∧ byteAt b (b.length - 1) = 0xEB then [0xEB] else [] := by
  cases b using List.reverseRecOn with
  | nil => rfl
  | append_singleton xs x => simp [trimNoMarker, byteAt, marker0]

/-- Settles O21. -/
theorem markerSearchTakesTheLeastOffset : Obligations.MarkerSearchTakesTheLeastOffset := by
  intro b
  refine ⟨fun p hp => ?_, fun hnone => ⟨fun q _ => not_markerAt_of_findMarker_none hnone q, fun prev => ?_⟩⟩
  · obtain ⟨h0, h1⟩ := markerAt_of_findMarker b p hp
    refine ⟨findMarker_lt b p hp, h0, h1, fun q hq hm => ?_⟩
    obtain ⟨r, hr, hfind⟩ := findMarker_le_of_markerAt b q hm
    have hrp : r = p := Option.some.inj (hfind.symm.trans hp)
    omega
  · rw [scan_none b prev hnone, trimNoMarker_eq]

/-! ### One pass of the scan (R184 to R193) -/

/-- Fewer bytes than three, or than offset 2 selects, wait (R185, R187). -/
theorem scan_wait {buf : List Byte} {p : Nat} (prev : Option TlmRecord) (hp : findMarker buf = some p)
    (h : (buf.drop p).length < 3 ∨ (buf.drop p).length < frameLength (byteAt (buf.drop p) 2)) :
    scan buf prev = ⟨[], buf.drop p, prev⟩ := by
  rw [scan_eq, hp]
  by_cases h3 : (buf.drop p).length < 3
  · exact if_pos h3
  · exact (if_neg h3).trans (if_pos (h.resolve_left h3))

/-- As many bytes as offset 2 selects are judged, and the rest is scanned (R188). -/
theorem scan_pass {buf : List Byte} {p : Nat} (prev : Option TlmRecord) (hp : findMarker buf = some p)
    (h : frameLength (byteAt (buf.drop p) 2) ≤ (buf.drop p).length) :
    scan buf prev =
      (let len := frameLength (byteAt (buf.drop p) 2)
       let j := judge ((buf.drop p).take len) prev
       let r := scan ((buf.drop p).drop len) j.2
       ⟨j.1 :: r.events, r.buf, r.prev⟩) := by
  have h3 : ¬(buf.drop p).length < 3 := by
    rcases frameLength_cases (byteAt (buf.drop p) 2) with hl | hl <;> omega
  rw [scan_eq, hp]
  exact (if_neg h3).trans (if_neg (Nat.not_lt.mpr h))

theorem judge_of_not_valid {f : List Byte} (prev : Option TlmRecord) (hv : ¬frameValid f = true) :
    judge f prev = (.ckerr f, prev) :=
  if_neg hv

theorem judge_of_tlm {f : List Byte} (prev : Option TlmRecord) (hv : frameValid f = true) (hl : f.length = 32) :
    judge f prev = (.tlm (telemetryRecord f) (prev.getD (telemetryRecord f)), some (telemetryRecord f)) :=
  (if_pos hv).trans (if_pos hl)

theorem judge_of_ack {f : List Byte} (prev : Option TlmRecord) (hv : frameValid f = true) (hl : f.length ≠ 32) :
    judge f prev = (.ack f, prev) :=
  (if_pos hv).trans (if_neg hl)

/-- Settles O22: two waits, and a pass for each way a candidate is judged. -/
theorem scanFollowsTheSteps : Obligations.ScanFollowsTheSteps := by
  intro buf prev p hp b len f rest
  have hvalid (hL : len ≤ b.length) : frameValid f = true ↔ byteAt f (len - 1) = sum8 f 2 (len - 1) := by
    rw [frameValid_iff, frameChecksum, List.length_take_of_le hL]
  have hpass (hL : len ≤ b.length) : scan buf prev =
      ⟨(judge f prev).1 :: (scan rest (judge f prev).2).events, (scan rest (judge f prev).2).buf,
        (scan rest (judge f prev).2).prev⟩ := scan_pass prev hp hL
  refine ⟨fun h3 => scan_wait prev hp (.inl h3), fun _ hL => scan_wait prev hp (.inr hL), ?_, ?_, ?_⟩
  · intro _ hL hsum
    rw [hpass hL, judge_of_not_valid prev (mt (hvalid hL).mp hsum)]
  · intro _ hL hsum h32
    rw [hpass hL, judge_of_tlm prev ((hvalid hL).mpr hsum) ((List.length_take_of_le hL).trans h32)]
  · intro _ hL hsum h8
    have hl : f.length ≠ 32 := by rw [List.length_take_of_le hL, h8]; decide
    rw [hpass hL, judge_of_ack prev ((hvalid hL).mpr hsum) hl]

/-- Settles O23. -/
theorem scanEndsInALegalShape : Obligations.ScanEndsInALegalShape := bufShape_scan

/-! ### How many events arriving bytes give (R192, R205) -/

/-- Every event of a scan has taken at least 8 bytes of the buffer (R192). -/
theorem scan_events_length (buf : List Byte) (prev : Option TlmRecord) :
    8 * (scan buf prev).events.length ≤ buf.length := by
  induction hn : buf.length using Nat.strong_induction_on generalizing buf prev with
  | _ n ih =>
    rcases scan_cases buf prev with ⟨b, -, hs⟩ | ⟨f, rest, hc, hsuffix, hs⟩
    · rw [hs]
      exact Nat.zero_le n
    · have hle := hsuffix.length_le
      have hframe : 8 ≤ f.length := by
        rcases frameLength_cases (byteAt f 2) with h | h <;> rw [hc.2, h]
        decide
      rw [List.length_append] at hle
      have hrest := ih rest.length (by omega) rest (judge f prev).2 rfl
      rw [hs, List.length_cons]
      omega

/-- Settles O25: the scan is of at most 31 bytes held and the chunk's. -/
theorem pushEmitsBoundedEvents : Obligations.PushEmitsBoundedEvents := by
  intro c s t hs h
  obtain ⟨-, -, harrive⟩ := s.pushChunk_next t c h
  rw [s.arrive_eq] at harrive
  obtain rfl := Host.Outcome.next.inj harrive
  have hevents := scan_events_length (clearOnMarker true c s.buf ++ c) s.prev
  have hclear := clearOnMarker_length_le true c s.buf
  have hheld := hs.length_le
  rw [List.length_append] at hevents
  change (scan (clearOnMarker true c s.buf ++ c) s.prev).events.length ≤ _
  omega

/-- A buffer of a legal shape waits: the scan has nothing to do on it. -/
theorem scan_of_bufShape {b : List Byte} (h : BufShape b) (prev : Option TlmRecord) : scan b prev = ⟨[], b, prev⟩ := by
  rcases h with rfl | rfl | rfl | ⟨hm, -, hlt⟩
  · rfl
  · rfl
  · rfl
  · exact scan_incomplete b prev hm hlt

/-- A legal buffer of three bytes or more is the start of a frame that waits for the rest of it. -/
theorem BufShape.incomplete {b : List Byte} (h : BufShape b) (h3 : 3 ≤ b.length) :
    b.take 2 = [marker0, marker1] ∧ b.length < frameLength (byteAt b 2) := by
  rcases h with rfl | rfl | rfl | ⟨hm, -, hlt⟩
  · exact absurd h3 (by decide)
  · exact absurd h3 (by decide)
  · exact absurd h3 (by decide)
  · exact ⟨hm, hlt⟩

/-- One more byte completes at most one frame. -/
theorem scan_bufShape_concat_events {b : List Byte} (h : BufShape b) (x : Byte) (prev : Option TlmRecord) :
    (scan (b ++ [x]) prev).events.length ≤ 1 := by
  rcases Nat.lt_or_ge b.length 3 with hshort | h3
  · have hevents := scan_events_length (b ++ [x]) prev
    rw [List.length_append, List.length_singleton] at hevents
    omega
  · obtain ⟨hm, hlt⟩ := h.incomplete h3
    have hmx : (b ++ [x]).take 2 = [marker0, marker1] := by rw [List.take_append_of_le_length (by omega), hm]
    have hdisc : byteAt (b ++ [x]) 2 = byteAt b 2 := List.getD_append b [x] 0 2 h3
    by_cases hfull : b.length + 1 = frameLength (byteAt b 2)
    · have hc : Candidate (b ++ [x]) := ⟨hmx, by rw [hdisc, ← hfull, List.length_append]; rfl⟩
      rw [scan_candidate _ prev hc]
      exact Nat.le_refl 1
    · have hshort : (b ++ [x]).length < frameLength (byteAt (b ++ [x]) 2) := by
        rw [hdisc, List.length_append, List.length_singleton]
        omega
      rw [scan_incomplete _ prev hmx hshort]
      exact Nat.zero_le 1

/-- Settles O26. -/
theorem pushByteAppendsAndScans : Obligations.PushByteAppendsAndScans := by
  intro b sop s hport r
  have hr : r = receive sop [b] s.buf s.prev := by
    rw [receive, clearOnMarker_eq sop [b] s.buf (by simp)]
    rfl
  refine ⟨?_, fun hs => ⟨?_, (bufShape_scan _ _).length_le⟩⟩
  · rw [exec_pushByte_of_port b sop s hport, s.arrive_eq, hr]
  · have hcleared : BufShape (if sop = true ∧ b = 0xEB then [] else s.buf) := by
      split
      · exact .inl rfl
      · exact hs
    exact scan_bufShape_concat_events hcleared b s.prev

/-! ### A telemetry frame that arrives as one chunk of its own (R189, R190; log 3) -/

/-- The record of a telemetry frame on the wire has its fields, and the marker and `DD` as its header. -/
theorem telemetryRecord_wireFrame (x : TlmFields) :
    telemetryRecord x.frame = { x with header := ⟨marker0, marker1, discTlm⟩ } :=
  congrArg (fun y : TlmFields => ({ y with header := ⟨marker0, marker1, discTlm⟩ } : TlmRecord))
    (telemetryFields_frame x)

theorem frameValid_wireFrame (x : TlmFields) : frameValid x.frame = true ↔ x.checksum = sum8 x.frame 2 31 :=
  frameValid_iff x.frame

/-- RSP.TLM is the judgement of its frame: nothing is left in the buffer. -/
theorem exec_rspTlm (x : TlmFields) (s : State) (hs : 32 ≤ s.params.chunkMax) :
    exec (.rspTlm x) s = .next { s with
      buf := []
      prev := (judge x.frame s.prev).2
      result := some (.ok (.events [(judge x.frame s.prev).1])) } := by
  have harrive : exec (.rspTlm x) s = s.arrive true x.frame :=
    s.pushChunk_legal _ (by rw [TlmFields.frame_length]; decide) (by rw [TlmFields.frame_length]; exact hs)
  have hcandidate : Candidate x.frame := ⟨rfl, rfl⟩
  rw [harrive, s.arrive_eq, receive_of_take_two _ _ _ rfl, scan_candidate _ _ hcandidate]

/-- Settles O37. -/
theorem telemetryFrameArrives : Obligations.TelemetryFrameArrives := by
  intro x s hs
  refine ⟨fun hsum => ?_, fun hsum => ?_⟩
  · rw [exec_rspTlm x s hs, judge_of_tlm s.prev ((frameValid_wireFrame x).mpr hsum) (TlmFields.frame_length x),
      telemetryRecord_wireFrame]
    rfl
  · rw [exec_rspTlm x s hs, judge_of_not_valid s.prev (mt (frameValid_wireFrame x).mp hsum)]

/-! ### Runs of arriving bytes (R202, R206) -/

/-- A run that completes has completed its first instruction and then the others. -/
theorem resyncRun_cons_eq_some_iff {i : Instr} {is : List Instr} {s : State} {r : ScanResult} :
    resyncRun (i :: is) s = some r ↔ ∃ t r', exec i s = .next t ∧ resyncRun is t = some r' ∧
      ⟨t.emitted ++ r'.events, r'.buf, r'.prev⟩ = r := by
  rw [resyncRun]
  cases exec i s with
  | next t => simp
  | fault x => simp
  | refused x => simp

theorem resyncRun_cons_of_next {i : Instr} {is : List Instr} {s t : State} {r : ScanResult}
    (ht : exec i s = .next t) (hr : resyncRun is t = some r) :
    resyncRun (i :: is) s = some ⟨t.emitted ++ r.events, r.buf, r.prev⟩ :=
  resyncRun_cons_eq_some_iff.mpr ⟨t, r, ht, hr, rfl⟩

/-- A run that begins with arriving bytes: where the rest of the run is the scan of what was left with further bytes,
the whole run is one scan of all the bytes, since a scan may be interrupted (`scan_append`). -/
theorem resyncRun_cons_arrive {i : Instr} {is : List Instr} {s : State} {sop : Bool} {held c rest : List Byte}
    (harrive : exec i s = s.arrive sop c) (hreceive : receive sop c s.buf s.prev = scan (held ++ c) s.prev)
    (hrest : ∀ t, exec i s = .next t → BufShape t.buf → resyncRun is t = some (scan (t.buf ++ rest) t.prev)) :
    resyncRun (i :: is) s = some (scan (held ++ (c ++ rest)) s.prev) := by
  have hexec := harrive.trans (s.arrive_eq sop c)
  rw [hreceive] at hexec
  rw [resyncRun_cons_of_next hexec (hrest _ hexec (bufShape_scan _ _)), State.emitted_events, ← List.append_assoc,
    scan_append (held ++ c) rest]

/-- An instruction that receives all the bytes there are runs as their reception. -/
theorem resyncRun_singleton_arrive {i : Instr} {s : State} {sop : Bool} {c : List Byte}
    (harrive : exec i s = s.arrive sop c) : resyncRun [i] s = some (receive sop c s.buf s.prev) := by
  rw [resyncRun_cons_of_next (is := []) (harrive.trans (s.arrive_eq sop c)) rfl, State.emitted_events, List.append_nil]

/-- Bytes given one by one without the start bit are scanned as if they had arrived together. -/
theorem resyncRun_pushByte_false (bs : List Byte) (s : State) (hport : s.params.bytePort = true) (hs : BufShape s.buf) :
    resyncRun (bs.map fun b => .pushByte b false) s = some (scan (s.buf ++ bs) s.prev) := by
  induction bs generalizing s with
  | nil => rw [List.append_nil, scan_of_bufShape hs]; rfl
  | cons b bs ih =>
    refine resyncRun_cons_arrive (exec_pushByte_of_port b false s hport) rfl fun t ht htbuf => ?_
    exact ih t ((congrArg Params.bytePort (exec_params _ s t ht)).trans hport) htbuf

/-- Settles O30: both are the scan of what step 1 leaves with the whole chunk appended. -/
theorem byteSerialDeliveryEqualsChunkDelivery : Obligations.ByteSerialDeliveryEqualsChunkDelivery := by
  intro c s hport h1 h2
  refine ⟨_, resyncRun_singleton_arrive (exec_push_legal c s h1 h2), ?_⟩
  cases c with
  | nil => exact absurd h1 (by decide)
  | cons b bs =>
    refine resyncRun_cons_arrive (c := [b]) (exec_pushByte_of_port b true s hport) rfl fun t ht htbuf => ?_
    exact resyncRun_pushByte_false bs t ((congrArg Params.bytePort (exec_params _ s t ht)).trans hport) htbuf

/-! ### Streams cut into chunks (R202) -/

/-- R202's condition on the chunks after the first: each that begins with `EB` meets a buffer that is empty or a lone
`EB`, which step 1 may clear without loss. -/
def MarkerLedChunksMeetNoFrame (chunks : List (List Byte)) (s : State) : Prop :=
  ∀ before c after r, chunks = before ++ c :: after → c.head? = some marker0 →
    resyncRun (before.map .push) s = some r → r.buf = [] ∨ r.buf = [marker0]

theorem MarkerLedChunksMeetNoFrame.head {c : List Byte} {cs : List (List Byte)} {s : State}
    (h : MarkerLedChunksMeetNoFrame (c :: cs) s) (hc : c.head? = some marker0) : s.buf = [] ∨ s.buf = [marker0] :=
  h [] c cs _ rfl hc rfl

/-- A condition on what precedes each later chunk of `c :: cs`, `c` included, is one on `cs` from where `c` leaves. -/
theorem markerLedChunksMeetNoFrame_of_cons {c : List Byte} {cs : List (List Byte)} {s t : State}
    (h : ∀ before d after r, c :: cs = (c :: before) ++ d :: after → d.head? = some marker0 →
      resyncRun ((c :: before).map .push) s = some r → r.buf = [] ∨ r.buf = [marker0])
    (ht : exec (.push c) s = .next t) : MarkerLedChunksMeetNoFrame cs t := by
  rintro before d after r rfl hd hr
  have hbuf := h before d after _ rfl hd (resyncRun_cons_of_next ht hr)
  exact hbuf

theorem MarkerLedChunksMeetNoFrame.tail {c : List Byte} {cs : List (List Byte)} {s t : State}
    (h : MarkerLedChunksMeetNoFrame (c :: cs) s) (ht : exec (.push c) s = .next t) : MarkerLedChunksMeetNoFrame cs t :=
  markerLedChunksMeetNoFrame_of_cons (fun before d after r heq => h (c :: before) d after r heq) ht

/-- Where step 1 loses nothing, the chunk is appended: a lone `EB` before another `EB` begins no marker. -/
theorem receive_eq_scan_append {c buf : List Byte} (prev : Option TlmRecord)
    (h : c.head? = some marker0 → buf = [] ∨ buf = [marker0]) : receive true c buf prev = scan (buf ++ c) prev := by
  by_cases hc : c.head? = some marker0
  · have hclear : receive true c buf prev = scan c prev := by simp [receive, clearOnMarker, hc]
    have hne : c ≠ [] := by
      rintro rfl
      exact absurd hc (by simp)
    rcases h hc with rfl | rfl
    · exact hclear
    · rw [hclear, List.singleton_append, scan_cons marker0 c prev hne (by rw [hc]; decide)]
  · simp [receive, clearOnMarker, hc]

/-- Later chunks are scanned as if they had arrived together. -/
theorem resyncRun_laterChunks (cs : List (List Byte)) (s : State) (hs : BufShape s.buf) (hne : ∀ c ∈ cs, c ≠ [])
    (hmax : cs.flatten.length ≤ s.params.chunkMax) (hmeet : MarkerLedChunksMeetNoFrame cs s) :
    resyncRun (cs.map .push) s = some (scan (s.buf ++ cs.flatten) s.prev) := by
  induction cs generalizing s with
  | nil => rw [List.flatten_nil, List.append_nil, scan_of_bufShape hs]; rfl
  | cons c cs ih =>
    obtain ⟨hc, hcs⟩ := List.forall_mem_cons.mp hne
    rw [List.flatten_cons, List.length_append] at hmax
    have hlegal := exec_push_legal c s (List.length_pos_of_ne_nil hc) (by omega)
    refine resyncRun_cons_arrive hlegal (receive_eq_scan_append s.prev hmeet.head) fun t ht htbuf => ?_
    exact ih t htbuf hcs (by rw [exec_params _ s t ht]; omega) (hmeet.tail ht)

/-- A stream in chunks is received as the stream in one chunk, under R202's condition. -/
theorem resyncRun_chunks (c : List Byte) (cs : List (List Byte)) (s : State) (hc : c ≠ []) (hcs : ∀ d ∈ cs, d ≠ [])
    (hmax : (c ++ cs.flatten).length ≤ s.params.chunkMax)
    (hmeet : ∀ t, exec (.push c) s = .next t → MarkerLedChunksMeetNoFrame cs t) :
    resyncRun (.push c :: cs.map .push) s = some (receive true (c ++ cs.flatten) s.buf s.prev) := by
  rw [List.length_append] at hmax
  have hlegal := exec_push_legal c s (List.length_pos_of_ne_nil hc) (by omega)
  rw [receive, clearOnMarker_append true c _ _ hc]
  refine resyncRun_cons_arrive hlegal rfl fun t ht htbuf => ?_
  exact resyncRun_laterChunks cs t htbuf hcs (by rw [exec_params _ s t ht]; omega) (hmeet t ht)

/-- R202's limit: an acknowledgment cut before its checksum, which is itself `EB`. In two chunks it is lost. -/
theorem chunkBoundary_before_EB_loses_frame : ∃ (a b : List Byte) (s : State) (r u : ScanResult),
    resyncRun [.push a, .push b] s = some r ∧ resyncRun [.push (a ++ b)] s = some u ∧ r.events ≠ u.events :=
  ⟨[0xEB, 0x90, 0xD2, 0x00, 0x00, 0x00, 0x19], [0xEB], ⟨⟨8, false, 1, false⟩, [], none, [], none⟩,
    ⟨[], [0xEB], none⟩, ⟨[.ack [0xEB, 0x90, 0xD2, 0x00, 0x00, 0x00, 0x19, 0xEB]], [], none⟩,
    by decide, by decide, by decide⟩

/-- Settles O31. -/
theorem chunkBoundariesDoNotMatter : Obligations.ChunkBoundariesDoNotMatter := by
  refine ⟨?_, chunkBoundary_before_EB_loses_frame⟩
  intro chunks s hchunks hne hmax hmeet
  cases chunks with
  | nil => exact absurd rfl hchunks
  | cons c cs =>
    obtain ⟨hc, hcs⟩ := List.forall_mem_cons.mp hne
    have hpos : 1 ≤ (c ++ cs.flatten).length := List.length_pos_of_ne_nil (by simp [hc])
    have hlater (t : State) (ht : exec (.push c) s = .next t) : MarkerLedChunksMeetNoFrame cs t :=
      markerLedChunksMeetNoFrame_of_cons
        (fun before d after r heq => hmeet (c :: before) d after r heq (List.cons_ne_nil c before)) ht
    exact ⟨_, resyncRun_chunks c cs s hc hcs hmax hlater, resyncRun_singleton_arrive (exec_push_legal _ s hpos hmax)⟩

/-! ### Recovery after garbage (R203) -/

theorem findMarker_eq_none {g : List Byte} (h : HoldsNoMarker g) : findMarker g = none := by
  cases hm : findMarker g with
  | none => rfl
  | some p => exact absurd (markerAt_of_findMarker g p hm) (h p (findMarker_lt g p hm))

/-- A valid candidate gives the event that R203 counts for it. -/
theorem eventPerFrame_cons {f : List Byte} (hv : frameValid f = true) (fs : List (List Byte))
    (prev : Option TlmRecord) :
    eventPerFrame (f :: fs) prev = (judge f prev).1 :: eventPerFrame fs (judge f prev).2 := by
  rw [eventPerFrame]
  split
  · next hl => rw [judge_of_tlm prev hv hl]
  · next hl => rw [judge_of_ack prev hv hl]

/-- Well-formed frames one after another are each judged: a frame leaves no byte, and the scan goes on with the next. -/
theorem scan_frames (frames : List (List Byte)) (prev : Option TlmRecord) (h : ∀ f ∈ frames, WellFormedFrame f) :
    (scan frames.flatten prev).events = eventPerFrame frames prev := by
  induction frames generalizing prev with
  | nil => rfl
  | cons f fs ih =>
    obtain ⟨⟨hm, hl, hv⟩, hfs⟩ := List.forall_mem_cons.mp h
    rw [List.flatten_cons, scan_append, scan_candidate f prev ⟨hm, hl⟩, eventPerFrame_cons hv fs prev, ← ih _ hfs]
    rfl

/-- Bytes that hold no marker are passed over, and the `EB` that may remain of them begins none with a frame's first
byte. -/
theorem scan_garbage_append {g : List Byte} (y : List Byte) (prev : Option TlmRecord) (hg : findMarker g = none)
    (hy : y.head? = some marker0) : scan (g ++ y) prev = scan y prev := by
  have hne : y ≠ [] := by
    rintro rfl
    exact absurd hy (by simp)
  rw [scan_trim g y prev hg, trimNoMarker]
  split
  · exact scan_cons marker0 y prev hne (by rw [hy]; decide)
  · rfl

/-- A stream of frames begins with `EB`. -/
theorem flatten_head?_of_wellFormed (f : List Byte) (fs : List (List Byte)) (h : WellFormedFrame f) :
    (f :: fs).flatten.head? = some marker0 := by
  obtain ⟨hm, -, -⟩ := h
  cases f with
  | nil => exact absurd hm (by simp)
  | cons a r => exact congrArg List.head? hm

/-- After garbage the scan gives the frames' events. -/
theorem scan_garbage_frames {g : List Byte} (frames : List (List Byte)) (prev : Option TlmRecord) (hg : HoldsNoMarker g)
    (h : ∀ f ∈ frames, WellFormedFrame f) : (scan (g ++ frames.flatten) prev).events = eventPerFrame frames prev := by
  have hnone := findMarker_eq_none hg
  cases frames with
  | nil => rw [List.flatten_nil, List.append_nil, scan_none g prev hnone]; rfl
  | cons f fs =>
    have hhead := flatten_head?_of_wellFormed f fs (h f List.mem_cons_self)
    rw [scan_garbage_append _ prev hnone hhead, scan_frames _ prev h]

theorem eventPerFrame_length (frames : List (List Byte)) (prev : Option TlmRecord) :
    (eventPerFrame frames prev).length = frames.length := by
  induction frames generalizing prev with
  | nil => rfl
  | cons f fs ih =>
    rw [eventPerFrame]
    split <;> rw [List.length_cons, ih, List.length_cons]

theorem ckerr_not_mem_eventPerFrame (x : List Byte) (frames : List (List Byte)) (prev : Option TlmRecord) :
    .ckerr x ∉ eventPerFrame frames prev := by
  induction frames generalizing prev with
  | nil => simp [eventPerFrame]
  | cons f fs ih =>
    rw [eventPerFrame]
    split <;> simp [ih]

/-- Settles O32. -/
theorem recoveryAfterGarbage : Obligations.RecoveryAfterGarbage := by
  intro g frames s hbuf hprev hg hframes h1 h2
  have hheld : clearOnMarker true (g ++ frames.flatten) s.buf = [] := by
    rw [hbuf, clearOnMarker, ite_self]
  have hevents : (receive true (g ++ frames.flatten) s.buf s.prev).events = eventPerFrame frames none := by
    rw [receive, hheld, hprev, List.nil_append, scan_garbage_frames frames none hg hframes]
  refine ⟨_, (exec_push_legal _ s h1 h2).trans (s.arrive_eq true _), ?_⟩
  rw [State.emitted_events, hevents]
  exact ⟨rfl, eventPerFrame_length frames none, fun f => ckerr_not_mem_eventPerFrame f frames none⟩

/-! ### The literal reading of step 3 (R207) -/

/-- Two buffers are alike where every scan of them, whatever arrives after them, is the same. -/
def ScanAlike (a b : List Byte) : Prop := ∀ y prev, scan (a ++ y) prev = scan (b ++ y) prev

theorem ScanAlike.refl (a : List Byte) : ScanAlike a a := fun _ _ => rfl

/-- Step 1 keeps two buffers alike. -/
theorem ScanAlike.clearOnMarker {a b : List Byte} (h : ScanAlike a b) (sop : Bool) (c : List Byte) :
    ScanAlike (clearOnMarker sop c a) (clearOnMarker sop c b) := by
  unfold Machine.clearOnMarker
  split
  · exact ScanAlike.refl []
  · exact h

/-- The literal scan has the events and the previous record of the scan, and leaves a buffer alike: the two part only
where no marker stands, and there the trim does not matter. -/
theorem scanLiteralLoop_simulates (n : Nat) (buf : List Byte) (prev : Option TlmRecord) (hn : buf.length ≤ n) :
    (scanLiteralLoop n buf prev).events = (scan buf prev).events ∧
      (scanLiteralLoop n buf prev).prev = (scan buf prev).prev ∧
        ScanAlike (scanLiteralLoop n buf prev).buf (scan buf prev).buf := by
  induction n generalizing buf prev with
  | zero =>
    obtain rfl := List.length_eq_zero_iff.mp (Nat.le_zero.mp hn)
    exact ⟨rfl, rfl, ScanAlike.refl []⟩
  | succ n ih =>
    rw [scan_eq, scanLiteralLoop]
    cases hp : findMarker buf with
    | none => exact ⟨rfl, rfl, fun y q => scan_trim buf y q hp⟩
    | some p =>
      dsimp only
      split
      · exact ⟨rfl, rfl, ScanAlike.refl _⟩
      · split
        · exact ⟨rfl, rfl, ScanAlike.refl _⟩
        · have hpos := frameLength_pos (byteAt (buf.drop p) 2)
          exact (ih _ _ (by simp only [List.length_drop]; omega)).imp_left (congrArg (List.cons _))

/-- An operation of the stateless units receives no bytes and is not RESET. -/
theorem StatelessResult.receives_nothing {i : Instr} {r : Result} (h : StatelessResult i r) :
    arrivalOf i = none ∧ i ≠ .reset := by
  cases h with
  | enc k v => cases k <;> exact ⟨rfl, by simp [encInstr]⟩
  | cksum f => exact ⟨rfl, by simp⟩
  | validate f => exact ⟨rfl, by simp⟩
  | decodeTlm f _ => exact ⟨rfl, by simp⟩

/-- The literal resynchronizer passes over an operation that receives nothing and is not RESET. -/
theorem literalEvents_cons_of_nothing {i : Instr} (h : arrivalOf i = none ∧ i ≠ .reset) (is : List Instr)
    (buf : List Byte) (prev : Option TlmRecord) : literalEvents (i :: is) buf prev = literalEvents is buf prev := by
  obtain ⟨harrival, hreset⟩ := h
  simp only [literalEvents, harrival, if_neg hreset]

/-- What arrives at alike buffers gives the literal resynchronizer the events of the FCR's reception, and it goes on
with the FCR's previous record and a buffer alike the FCR's. -/
theorem literalEvents_cons_of_arrival {i : Instr} {sop : Bool} {c : List Byte} (hi : arrivalOf i = some (sop, c))
    (is : List Instr) {kept buf : List Byte} (prev : Option TlmRecord) (h : ScanAlike kept buf) :
    ∃ kept', ScanAlike kept' (receive sop c buf prev).buf ∧ literalEvents (i :: is) kept prev =
      (receive sop c buf prev).events ++ literalEvents is kept' (receive sop c buf prev).prev := by
  have hsame : scan (clearOnMarker sop c kept ++ c) prev = receive sop c buf prev := h.clearOnMarker sop c c prev
  obtain ⟨hevents, hprev, hbuf⟩ := scanLiteralLoop_simulates _ (clearOnMarker sop c kept ++ c) prev (Nat.le_refl _)
  rw [hsame] at hevents hprev hbuf
  refine ⟨_, hbuf, ?_⟩
  simp only [literalEvents, hi, hevents, hprev]

/-- A run has the events of the literal resynchronizer from any buffer alike its own. -/
theorem resyncRun_events_eq_literal (is : List Instr) (s : State) (r : ScanResult) (kept : List Byte)
    (h : ScanAlike kept s.buf) (hr : resyncRun is s = some r) : r.events = literalEvents is kept s.prev := by
  induction is generalizing s r kept with
  | nil =>
    obtain rfl := Option.some.inj hr
    rfl
  | cons i is ih =>
    obtain ⟨t, r', hexec, htail, rfl⟩ := resyncRun_cons_eq_some_iff.mp hr
    rcases exec_cases i s t hexec with ⟨x, hx, rfl⟩ | ⟨rfl, rfl⟩ | ⟨sop, c, hi, harrive⟩
    · rw [literalEvents_cons_of_nothing hx.receives_nothing, hx.emitted_eq_nil s, List.nil_append]
      exact ih { s with result := some x } r' kept h htail
    · exact ih _ r' [] (ScanAlike.refl []) htail
    · rw [s.arrive_eq] at harrive
      obtain rfl := Host.Outcome.next.inj harrive
      obtain ⟨kept', halike, hliteral⟩ := literalEvents_cons_of_arrival hi is s.prev h
      rw [hliteral, State.emitted_events, ih _ r' kept' halike htail]

/-- Settles O33: at the start both resynchronizers hold the same bytes. -/
theorem trimChangesNoEvent : Obligations.TrimChangesNoEvent :=
  fun is s r hr => resyncRun_events_eq_literal is s r s.buf (ScanAlike.refl s.buf) hr

end Sys2Proof.Machine

/-! PROOFS. Frames for the host's queue, the codes of results, illegal lengths, and a step with nothing issued. -/

namespace Sys2Proof.Machine

/-! ### The frame offered to the host's queue (R127, R236) -/

/-- The host is offered exactly the frame that the last result holds. -/
theorem State.outgoingFrame_eq_some_iff (s : State) (f : List Byte) :
    s.outgoingFrame = some f ↔ s.result = some (.ok (.frame f)) := by
  unfold State.outgoingFrame
  split
  · simp [*]
  · next hnone => exact ⟨fun h => (nomatch h), fun h => absurd h (hnone f)⟩

/-- Of the stateless units only the encoder returns a frame, and only of a value in range. -/
theorem StatelessResult.enc_of_frame {i : Instr} {r : Result} {f : List Byte} (h : StatelessResult i r)
    (hr : r = .ok (.frame f)) : ∃ k v, i = encInstr k v ∧ inRange k v = true ∧ f = commandFrame k v := by
  cases h with
  | enc k v =>
    rcases encodeCommand_cases k v with ⟨hin, he⟩ | ⟨-, he⟩
    · exact ⟨k, v, rfl, hin, by simpa [he, eq_comm] using hr⟩
    · simp [he] at hr
  | cksum g => cases hr
  | validate g => cases hr
  | decodeTlm g hl => rcases decodeTelemetry_cases g with ⟨-, he⟩ | ⟨-, he⟩ <;> simp [he] at hr

/-- Settles O9: RESET returns no frame, and what arrives returns events. -/
theorem onlyEncOffersAFrame : Obligations.OnlyEncOffersAFrame := by
  intro i s t f h hf
  rw [State.outgoingFrame_eq_some_iff] at hf
  rcases exec_cases i s t h with ⟨r, hr, rfl⟩ | ⟨-, rfl⟩ | ⟨sop, bytes, -, harrive⟩
  · exact hr.enc_of_frame (Option.some.inj hf)
  · simp at hf
  · rw [s.arrive_eq] at harrive
    obtain rfl := Host.Outcome.next.inj harrive
    simp at hf

/-! ### The codes of results (R230, R234) -/

/-- No operation leaves the reserved error as its result. No invariant is needed: RESET and arriving bytes return
`Ok`, and the stateless units read no state. -/
theorem exec_result_ne_reserved (i : Instr) (s t : State) (r : Result) (h : exec i s = .next t)
    (hr : t.result = some r) : r ≠ .err .responseLengthMismatch := by
  rcases exec_cases i s t h with ⟨x, hx, rfl⟩ | ⟨-, rfl⟩ | ⟨sop, bytes, -, harrive⟩
  · obtain rfl := Option.some.inj hr
    rintro rfl
    exact hx.resultSound rfl
  · simp [← Option.some.inj hr]
  · rw [s.arrive_eq] at harrive
    obtain rfl := Host.Outcome.next.inj harrive
    simp [← Option.some.inj hr]

/-- Every result but the reserved error has code 0, 1 or 2. -/
theorem Result.code_cases_of_ne {r : Result} (h : r ≠ .err .responseLengthMismatch) :
    r.code = 0 ∨ r.code = 1 ∨ r.code = 2 := by
  rcases r with v | e
  · exact .inl rfl
  · cases e with
    | outOfRange => exact .inr (.inl rfl)
    | checksumError => exact .inr (.inr rfl)
    | responseLengthMismatch => exact absurd rfl h

/-- An operation completes or is refused. -/
theorem exec_ne_fault (i : Instr) (s : State) (x : Fault) : exec i s ≠ .fault x := by
  obtain ⟨hlegal, hillegal⟩ := refusedExactlyWhereIllFormed i s
  cases hw : i.wellFormed s.params with
  | true =>
    obtain ⟨t, ht⟩ := hlegal hw
    simp [ht]
  | false =>
    obtain ⟨y, hy⟩ := hillegal hw
    simp [hy]

/-- Settles O39. -/
theorem reservedCodeIsNeverReturned : Obligations.ReservedCodeIsNeverReturned :=
  fun i s => ⟨exec_ne_fault i s, fun t r h hr => Result.code_cases_of_ne (exec_result_ne_reserved i s t r h hr)⟩

/-! ### Illegal lengths (R235) -/

theorem exec_push_illegal (c : List Byte) (s : State) (h : c.length = 0 ∨ s.params.chunkMax < c.length) :
    exec (.push c) s = .refused (.badLength c.length) :=
  if_pos h

/-- Settles O42. -/
theorem badLengthsAreRefused : Obligations.BadLengthsAreRefused := by
  intro x s
  refine ⟨fun h8 h32 => ?_, exec_decodeTlm_illegal x s, exec_push_illegal x s⟩
  have hlen : ¬(x.length = 8 ∨ x.length = 32) := not_or.mpr ⟨h8, h32⟩
  exact ⟨exec_cksum_illegal x s hlen, exec_validate_illegal x s hlen⟩

/-! ### A step with nothing issued (R245; log 1) -/

/-- Settles O48. -/
theorem idleStepChangesNothing : Obligations.IdleStepChangesNothing := by
  intro s hs
  simp only [step, s.takeIssue_nil hs]

end Sys2Proof.Machine

/-! PROOFS. RESET, power-on, and the host's start. -/

namespace Sys2Proof.Machine

/-! ### RESET (R260) and power-on (R261) -/

/-- RESET is total: it has no operand to be illegal, and it reads no field. -/
theorem exec_reset (s : State) :
    exec .reset s = .next { s with buf := [], prev := none, result := some (.ok .unit) } :=
  State.complete_ok { s with buf := [], prev := none } .unit

/-- Settles O34. -/
theorem resetClearsTheResynchronizer : Obligations.ResetClearsTheResynchronizer := by
  intro s
  refine ⟨exec_reset s, fun t h => ?_⟩
  obtain rfl := Host.Outcome.next.inj ((exec_reset s).symm.trans h)
  exact ⟨State.emitted_unit _ _ _ _, exec_reset _⟩

/-- Settles O35. -/
theorem powerOnIsTheResetState : Obligations.PowerOnIsTheResetState :=
  ⟨State.reset_buf, State.reset_prev, exec_reset State.reset⟩

/-! ### The host's start (R264; logs 1 and 7) -/

@[simp] theorem State.issue_nil (s : State) : s.issue [] = s := by
  simp [State.issue]

theorem State.hostStart_of_resetOnStart_false {s : State} (h : s.params.resetOnStart = false) : s.hostStart = s := by
  simp [State.hostStart, h]

theorem State.hostStart_of_resetOnStart_true {s : State} (h : s.params.resetOnStart = true) :
    s.hostStart = s.issue [.reset] := by
  simp [State.hostStart, h]

/-- The host's start writes the model's own list of issues and nothing else. -/
theorem State.hostStart_eq_with_input (s : State) : s.hostStart = { s with input := s.hostStart.input } := by
  cases h : s.params.resetOnStart with
  | false => rw [State.hostStart_of_resetOnStart_false h]
  | true => rw [State.hostStart_of_resetOnStart_true h]; rfl

@[simp] theorem State.hostStart_buf (s : State) : s.hostStart.buf = s.buf := by
  rw [s.hostStart_eq_with_input]

@[simp] theorem State.hostStart_prev (s : State) : s.hostStart.prev = s.prev := by
  rw [s.hostStart_eq_with_input]

/-- With nothing else issued, a RESET that the host issues is the next step. -/
theorem step_issue_reset (s : State) (hs : s.input = []) :
    step (s.issue [.reset]) = .next { s with buf := [], prev := none, result := some (.ok .unit) } :=
  calc step (s.issue [.reset]) = exec .reset (s.issue []) := issuedOperationsRunInOrder .reset [] s hs rfl
    _ = exec .reset s := by rw [s.issue_nil]
    _ = .next { s with buf := [], prev := none, result := some (.ok .unit) } := exec_reset s

/-- Settles O46. -/
theorem hostStartActsOnlyByReset : Obligations.HostStartActsOnlyByReset := by
  intro s
  refine ⟨s.hostStart_buf, s.hostStart_prev, State.hostStart_of_resetOnStart_false, fun hreset hs => ?_⟩
  rw [State.hostStart_of_resetOnStart_true hreset]
  exact step_issue_reset s hs

end Sys2Proof.Machine
